-- ==== Sys2Proof/Word.lean ====
section
/-! DEFINITION. The value types of the block (spec/00_scope.md R9): bytes, 32-bit words and 16-byte blocks. -/

namespace Sys2Proof

/-- An 8-bit unsigned value (R9). -/
abbrev Byte := BitVec 8

/-- A 32-bit unsigned value: a port word, a schedule word, a command word (R9). -/
abbrev Word := BitVec 32

/-- A block, "fixed 16-byte unit AES encrypts/decrypts as a whole" (R13); index 0 is the first byte (R9). -/
abbrev Block := Vector Byte 16

end Sys2Proof
end

