-- ==== Sys2Proof/Config.lean ====
section
/-! DEFINITION. What an implementation fixes (00_scope.md R8) and the free values, which no rule of the spec
constrains: they have no body, so that no proof can see what they are. -/

namespace Sys2Proof

/-- The parameter of the block. MBUF_SIZE "must be a multiple of 16 with 16 ≤ MBUF_SIZE ≤ 1048576" (R8):
it is held as its number of 16-byte units less one, so that every value is legal. It stands in State, so that a
statement about every state is a statement about every MBUF_SIZE (assumption 1). -/
structure Params where
  /-- MBUF_SIZE / 16 - 1. -/
  mbufUnits : Fin 65536
  deriving DecidableEq, Repr

/-- MBUF_SIZE in bytes (R8). -/
def Params.mbufSize (p : Params) : Nat := 16 * (p.mbufUnits.val + 1)

/-- APERTURE, in bytes of host offset (R8). -/
def Params.aperture (p : Params) : Nat := 0x1000 + p.mbufSize

/-- The spec's default, MBUF_SIZE = 4096 (R8). -/
def Params.default : Params := ⟨255⟩

/-- LAT(cmd): FREE VALUE. The latency of the command word, at the given draw: "finite, otherwise
unconstrained" (R8, 10_state.md R36, 70_reset_and_hazards.md R131; assumption 5). -/
opaque Config.lat : Word → Nat → Nat

/-- FREE VALUE. The word that a host read returns while BUSY = 1, for a register other than STATUS, ID and CAPS, at the
given draw: "it is a value under no law, and it may differ between two reads" (10_state.md R38; assumption 6). -/
opaque Config.busyRead : Nat → Word

/-- `mbuf0`: FREE VALUE. The byte that MBUF holds at the given index after reset: "fixed for the run", so the same after
every reset (20_memory.md R45, 10_state.md R41; assumption 2). -/
opaque Config.mbuf0 : Nat → Byte

end Sys2Proof
end

