-- ==== Sys2Proof/Syntax.lean ====
section
/-! DEFINITION. The commands, the host transactions and the host-script language (30_encoding.md), and the names of the
registers, key sizes and outcome codes. Meaning is given under Machine/ alone. -/

namespace Sys2Proof

/-- The eight commands of R60, one for each row of the opcode table. "No command word carries an immediate, a
register number or a mode field" (R61). -/
inductive Instr where
  /-- 0x01: expand the key in KEY into SCHED (R74). -/
  | keyexp
  /-- 0x02: encrypt BLK in place (R84). -/
  | encblk
  /-- 0x03: decrypt BLK in place (R90). -/
  | decblk
  /-- 0x04: CBC-encrypt MBUF[0..MLEN-1] in place (R93). -/
  | cbcenc
  /-- 0x05: CBC-decrypt MBUF[0..MLEN-1] in place (R95). -/
  | cbcdec
  /-- 0x06: append PKCS#7 padding (R99). -/
  | pad
  /-- 0x07: report the pad length (R100). -/
  | padlen
  /-- 0x08: remove the padding (R101). -/
  | unpad
  deriving DecidableEq, Repr

/-- Why a command word is ILLEGAL: the three kinds of illegal encoding of R62. -/
inductive Reject where
  /-- RSV ≠ 0. -/
  | reservedBitsSet
  /-- OP = 0x00: "illegal, not a no-op". -/
  | opcodeZero
  /-- OP in 0x09..0xFF. -/
  | opcodeUnassigned
  deriving DecidableEq, Repr

/-- The three key lengths, L ∈ {16, 24, 32} bytes (00_scope.md R7). -/
inductive KeySize where
  | k128
  | k192
  | k256
  deriving DecidableEq, Repr

/-- The outcome codes of STATUS.ERR (60_exceptions.md R102). Codes 7..15 are "never produced". -/
inductive ErrCode where
  /-- 0: the command completed successfully. -/
  | ok
  /-- 1: the command word decodes to ILLEGAL. -/
  | illegalCmd
  /-- 2: KEYLEN is not 16, 24 or 32. -/
  | invalidKeyLength
  /-- 3: MLEN is not a multiple of 16. -/
  | invalidBlockAlignment
  /-- 4: STATUS.SCHED_VALID = 0. -/
  | noSchedule
  /-- 5: MLEN > MBUF_SIZE. -/
  | bufferRange
  /-- 6: the padded message does not fit. -/
  | bufferOverflow
  deriving DecidableEq, Repr

/-- What a word offset of the host port selects: the rows of the register map (10_state.md R15). -/
inductive Target where
  | cmd
  | status
  | keylen
  | mlen
  | result
  | schedInfo
  | id
  | caps
  /-- The word KEY[4q..4q+3]. -/
  | key (q : Fin 8)
  /-- The word IV[4q..4q+3]. -/
  | iv (q : Fin 4)
  /-- The word BLK[4q..4q+3]. -/
  | blk (q : Fin 4)
  /-- The word CHAIN[4q..4q+3]. -/
  | chain (q : Fin 4)
  /-- The word SCHED[i]. -/
  | sched (i : Fin 60)
  /-- The word MBUF[4q..4q+3]. -/
  | mbuf (q : Nat)
  /-- RAZ/WI: 0x070..0x0FC, 0x1F0..0xFFC, and everything at or above APERTURE (R32). -/
  | reserved
  deriving DecidableEq, Repr

/-- HTX, a host transaction (R58; 20_memory.md R42): the word offset has 19 bits, and the byte offset is 4·woff. -/
inductive Htx where
  /-- `Read(off)`. -/
  | read (woff : BitVec 19)
  /-- `Write(off, v)`. -/
  | write (woff : BitVec 19) (data : Word)
  deriving DecidableEq, Repr

/-- The encoded form of an HTX: "a direction bit, a 19-bit word offset and, for a write, a 32-bit data word" (R58). -/
structure HtxWire where
  dir  : BitVec 1
  woff : BitVec 19
  data : Option Word
  deriving DecidableEq, Repr

/-- The operand OFF of a script line: "a number or a register name", or an element of an array, "base offset + that
byte count" (R65). -/
inductive Off where
  /-- A byte offset written as a number. -/
  | num (byteOff : Nat)
  | cmd
  | status
  | keylen
  | mlen
  | result
  | schedInfo
  | id
  | caps
  /-- KEY+b. -/
  | key (b : Nat)
  /-- IV+b. -/
  | iv (b : Nat)
  /-- BLK+b. -/
  | blk (b : Nat)
  /-- CHAIN+b. -/
  | chain (b : Nat)
  /-- SCHED+b. -/
  | sched (b : Nat)
  /-- MBUF+b. -/
  | mbuf (b : Nat)
  deriving DecidableEq, Repr

/-- A line of a host script after expansion: what the host does in ONE turn. A target `l` is an index of the script
(before assembly: a label). -/
inductive Line where
  /-- One host transaction: `rd OFF` or `wr OFF, V` (R65). -/
  | htx (t : Htx)
  /-- One poll of `wait`: read STATUS, and stay on this line while bit 0 of the word read is 1 (R67). -/
  | wait
  /-- `expect OFF, V`: read, and assert on the host side that the word read equals V (R67). -/
  | expect (woff : BitVec 19) (v : Word)
  /-- `brerr C, L`: go to L if bits [11:8] of the last STATUS word read are C (R67). -/
  | brerr (c : BitVec 4) (l : Nat)
  /-- `brres V, L`: read RESULT, and go to L if the word read is V (R67). -/
  | brres (v : Word) (l : Nat)
  /-- `jmp L` (R67). -/
  | jmp (l : Nat)
  /-- `halt`: end of script (R67). -/
  | halt
  /-- The host issues nothing in this turn. The model's own line, not R67's (assumption 8). -/
  | idle
  /-- `rst` is asserted in this turn, with the transaction (if any) that the host issues meanwhile. The input of
  70_reset_and_hazards.md R119, as an entry of the script (assumption 11). -/
  | rst (t : Option Htx)
  deriving DecidableEq, Repr

/-- A line of a host script as it is written: `rd`, `wr`, `cmd M` and the pseudo-instructions of R65 to R67. Labels are
numbers. -/
inductive Stmt where
  | wr (off : Off) (v : Word)
  | rd (off : Off)
  /-- `cmd M` (R66). -/
  | cmd (i : Instr)
  | wait
  /-- `ldkey HEX`. -/
  | ldkey (bytes : List Byte)
  /-- `ldarr A, HEX`, with A given by its first element. -/
  | ldarr (a : Off) (bytes : List Byte)
  /-- `ldmsg HEX`. -/
  | ldmsg (bytes : List Byte)
  | expect (off : Off) (v : Word)
  | brerr (c : BitVec 4) (l : Nat)
  | brres (v : Word) (l : Nat)
  | jmp (l : Nat)
  | halt
  /-- `l:`, the place that a branch names. -/
  | label (l : Nat)
  deriving DecidableEq, Repr

end Sys2Proof
end

