-- ==== Sys2Proof/WellFormed.lean ====
section
/-! DEFINITION. Well-formedness of commands and of host scripts, each check a Bool. -/

namespace Sys2Proof

/-- Every command is well-formed: it has no operand field to check (30_encoding.md R61). -/
def Instr.wf : Instr → Bool
  | .keyexp => true
  | .encblk => true
  | .decblk => true
  | .cbcenc => true
  | .cbcdec => true
  | .pad => true
  | .padlen => true
  | .unpad => true

/-- The host byte offset that an OFF operand names: the register map of 10_state.md R15. -/
def Off.byteOffset : Off → Nat
  | .num n => n
  | .cmd => 0x000
  | .status => 0x004
  | .keylen => 0x008
  | .mlen => 0x00C
  | .result => 0x010
  | .schedInfo => 0x014
  | .id => 0x018
  | .caps => 0x01C
  | .key b => 0x020 + b
  | .iv b => 0x040 + b
  | .blk b => 0x050 + b
  | .chain b => 0x060 + b
  | .sched b => 0x100 + b
  | .mbuf b => 0x1000 + b

/-- An element operand stays inside its array (R15); MBUF has at most 1048576 bytes (00_scope.md R8). -/
def Off.inArray : Off → Bool
  | .key b => b < 32
  | .iv b => b < 16
  | .blk b => b < 16
  | .chain b => b < 16
  | .sched b => b < 240
  | .mbuf b => b < 1048576
  | _ => true

/-- "Offsets are byte offsets, and every one is a multiple of 4" (R15), and the word offset has 19 bits (20_memory.md
R42). -/
def Off.wf (o : Off) : Bool :=
  o.byteOffset % 4 == 0 && o.byteOffset < 2 ^ 21 && o.inArray

/-- The check of one script line (30_encoding.md R65, R67): offsets are offsets of the port, the bytes of `ldarr` are whole
words ("len must be a multiple of 4"), and what is loaded fits where it goes. DESIGN CHOICE: the bytes of `ldkey` are whole
words too, where R67 leaves the last part word of an L that is no multiple of 4 open (assumption 15). -/
def Stmt.wf : Stmt → Bool
  | .wr off _ => off.wf
  | .rd off => off.wf
  | .cmd i => i.wf
  | .wait => true
  | .ldkey bs => bs.length % 4 == 0 && bs.length ≤ 32
  | .ldarr a bs => a.wf && bs.length % 4 == 0 && a.byteOffset + bs.length ≤ 2 ^ 21
  | .ldmsg bs => bs.length ≤ 1048576
  | .expect off _ => off.wf
  | .brerr _ _ => true
  | .brres _ _ => true
  | .jmp _ => true
  | .halt => true
  | .label _ => true

/-- The label that a line names as its target. -/
def Stmt.target? : Stmt → Option Nat
  | .brerr _ l => some l
  | .brres _ l => some l
  | .jmp l => some l
  | _ => none

/-- How often a script defines a label. -/
def labelCount (p : List Stmt) (l : Nat) : Nat := p.count (.label l)

/-- The label that a line names, if any, is defined exactly once in the script. -/
def Stmt.targetDefined (p : List Stmt) (st : Stmt) : Bool :=
  match st.target? with
  | none => true
  | some l => labelCount p l == 1

/-- A script is well-formed: each line is, and each label that a branch names is defined exactly once. -/
def scriptWf (p : List Stmt) : Bool :=
  p.all fun st => st.wf && st.targetDefined p

end Sys2Proof
end

