-- ==== Sys2Proof/Decode.lean ====
section
/-! DEFINITION. The decoder and the encoder of command words and of host transactions (30_encoding.md R58 to R62, R65). -/

namespace Sys2Proof

/-- The field OP of a command word, bits 7:0 (R59). -/
def opField (v : Word) : BitVec 8 := v.extractLsb' 0 8

/-- The field RSV of a command word, bits 31:8 (R59). -/
def rsvField (v : Word) : BitVec 24 := v.extractLsb' 8 24

/-- The opcode map of R60, read from OP; R62 for the rest. -/
def decodeOp (op : BitVec 8) : Except Reject Instr :=
  match op.toNat with
  | 0x00 => .error .opcodeZero
  | 0x01 => .ok .keyexp
  | 0x02 => .ok .encblk
  | 0x03 => .ok .decblk
  | 0x04 => .ok .cbcenc
  | 0x05 => .ok .cbcdec
  | 0x06 => .ok .pad
  | 0x07 => .ok .padlen
  | 0x08 => .ok .unpad
  | _ => .error .opcodeUnassigned

/-- `decode(v)` of R59. "The decoder is total": every 32-bit word is one of the eight commands or ILLEGAL, here with
the reason of R62 by name. -/
def decodeCmdw (v : Word) : Except Reject Instr :=
  if rsvField v ≠ 0 then .error .reservedBitsSet else decodeOp (opField v)

/-- The opcode of a command (R60). -/
def opcode : Instr → BitVec 8
  | .keyexp => 0x01
  | .encblk => 0x02
  | .decblk => 0x03
  | .cbcenc => 0x04
  | .cbcdec => 0x05
  | .pad => 0x06
  | .padlen => 0x07
  | .unpad => 0x08

/-- The command word of a command: RSV = 0, OP the opcode (R59, R60). -/
def encode (i : Instr) : Word := (0 : BitVec 24) ++ opcode i

/-- The word that an opcode-table row's bits are: bit 0 is the least significant bit of the one word of CMDW, and the
bits above `nbits` are 0. -/
def tableWord (nbits w : Nat) : Word := BitVec.ofNat 32 (w % 2 ^ nbits)

/-- The command that the decoder reads from a word given as the opcode table numbers its bits. -/
def decodeTableWord (nbits w : Nat) : Option Instr :=
  match decodeCmdw (tableWord nbits w) with
  | .ok i => some i
  | .error _ => none

/-- The encoding of a host transaction (R65): direction 1 for a write, 0 for a read. -/
def Htx.encode : Htx → HtxWire
  | .read woff => ⟨0, woff, none⟩
  | .write woff v => ⟨1, woff, some v⟩

/-- The host transaction that a wire form is. A read with a data word and a write without one are no HTX (R58). -/
def HtxWire.decode (x : HtxWire) : Option Htx :=
  match x.data with
  | none => if x.dir = 0 then some (.read x.woff) else none
  | some v => if x.dir = 1 then some (.write x.woff v) else none

/-- The word offset of an OFF operand: `woff = OFF/4` (R65). -/
def Off.woff (o : Off) : BitVec 19 := BitVec.ofNat 19 (o.byteOffset / 4)

end Sys2Proof
end

