-- ==== Sys2Proof/Machine/Galois.lean ====
section
/-! DEFINITION. GF(2^8) arithmetic (41_forward_cipher.md R75 to R77), and the direct polynomial product that AESAB
names as its measure ("bit-identical results to direct field multiplication"). -/

namespace Sys2Proof.Machine

/-- `xtime(a)`: multiplication by {02} (R76). -/
def xtime (a : Byte) : Byte := (a <<< 1) ^^^ (if a.getLsbD 7 then 0x1b else 0x00)

/-- The loop of `gmul` with `n` turns left, so that k = 8 - n (R77). -/
def gmulLoop (b : Byte) : Nat → Byte → Byte → Byte
  | 0, _, r => r
  | n + 1, a, r => gmulLoop b n (xtime a) (if b.getLsbD (7 - n) then r ^^^ a else r)

/-- `gmul(a, b)`, the field product a • b, by shift-and-add (R77). -/
def gmul (a b : Byte) : Byte := gmulLoop b 8 a 0

/-- The product of two polynomials over GF(2), before any reduction (R75). -/
def polyMul (a b : Byte) : BitVec 16 :=
  (List.range 8).foldl (fun r k => if b.getLsbD k then r ^^^ (a.zeroExtend 16 <<< k) else r) 0

/-- Reduction modulo m(x) = 0x11b of a polynomial of degree at most 7 + n: the term of degree 7 + n is cancelled
first (R75). -/
def polyReduce : Nat → BitVec 16 → BitVec 16
  | 0, p => p
  | n + 1, p => polyReduce n (if p.getLsbD (8 + n) then p ^^^ ((0x11b : BitVec 16) <<< n) else p)

/-- a • b by the definition of R75: "polynomial multiplication modulo the irreducible polynomial". A product of two
bytes has degree at most 14. -/
def fieldMul (a b : Byte) : Byte := (polyReduce 7 (polyMul a b)).truncate 8

end Sys2Proof.Machine
end

