-- ==== Sys2Proof/Machine/Bytes.lean ====
section
/-! DEFINITION. Byte order: the packing of bytes into words (00_scope.md R10, 10_state.md R16, 20_memory.md R46), and the
words of byte arrays as the host port shows them. -/

namespace Sys2Proof.Machine

/-- `be32(b0, b1, b2, b3)` (R10). -/
def be32 (b0 b1 b2 b3 : Byte) : Word := b0 ++ b1 ++ b2 ++ b3

/-- `bytes(w)[r]`, r in 0..3: byte 0 is w[31:24] (R10). -/
def wordByte (w : Word) (r : Nat) : Byte := w.extractLsb' (24 - 8 * r) 8

/-- `bytes(w)` as a byte sequence (R10). -/
def wordBytes (w : Word) : List Byte := [wordByte w 0, wordByte w 1, wordByte w 2, wordByte w 3]

/-- The big-endian words of a byte sequence, as many as it has whole: word q is be32(B[4q], .., B[4q+3]) (R72, R67). -/
def wordsOf (bs : List Byte) : List Word :=
  (List.range (bs.length / 4)).map fun q =>
    be32 (bs.getD (4 * q) 0) (bs.getD (4 * q + 1) 0) (bs.getD (4 * q + 2) 0) (bs.getD (4 * q + 3) 0)

/-- The port word at base + 4·q of a byte array: be32(A[4q], .., A[4q+3]) (R16). -/
def arrayWord {n : Nat} (a : Vector Byte n) (q : Nat) (h : 4 * q + 3 < n) : Word :=
  be32 a[4 * q] a[4 * q + 1] a[4 * q + 2] a[4 * q + 3]

/-- A byte array after the host wrote word w at base + 4·q (R16, R48). -/
def setArrayWord {n : Nat} (a : Vector Byte n) (q : Nat) (w : Word) : Vector Byte n :=
  Vector.ofFn fun j => if j.val / 4 = q then wordByte w (j.val % 4) else a[j.val]

/-- `^` on blocks, bytewise (00_scope.md R9). -/
def xorBlock (a b : Block) : Block := Vector.ofFn fun k => a[k.val] ^^^ b[k.val]

end Sys2Proof.Machine
end

