-- ==== Sys2Proof/Machine/State.lean ====
section
/-! DEFINITION. The state of the block and of its host (10_state.md R15 to R41; 20_memory.md R42 to R45; 30_encoding.md
R65, R67), the reasons a step can stop, and the state after reset (R41). -/

namespace Sys2Proof.Machine

/-- The reasons the machine stops with a fault: NONE. "No host transaction faults" (20_memory.md R49), and "the
block has no trap mechanism" (60_exceptions.md R110): an error is an outcome code in STATUS.ERR. That nothing can raise
a fault is what the spec says, so it is exact. -/
inductive Fault
  deriving DecidableEq, Repr

/-- The reasons the model refuses an instruction. -/
inductive Refusal where
  /-- Raised by `exec` for an instruction that has no meaning yet (none: every command has one). Safe: the model
  stops where the hardware goes on. -/
  | notModelled (mnemonic : String)
  deriving DecidableEq, Repr

/-- An accepted command that has not completed (10_state.md R34, R39 (a)). -/
structure Pending where
  /-- The command word, latched at acceptance. -/
  word : Word
  /-- How many turns of the host pass before its completion: the rest of LAT(cmd) (R36; assumption 5). -/
  wait : Nat
  deriving DecidableEq, Repr

/-- The hidden state of R39 (b) to (d), which the host cannot read and each command initialises (assumption 4). -/
structure Engine where
  /-- (b) The round state of the round pipelines. -/
  round    : Block
  /-- (b) The round counter, 0..Nr. -/
  rnd      : Nat
  /-- (c) The CBC controller's block counter, 0..MLEN/16. -/
  blockIdx : Nat
  /-- (d) PREV, the CBC decryption capture register. -/
  prev     : Block
  deriving DecidableEq, Repr

/-- The host's side of the port: its script and what it keeps of the words it read (30_encoding.md R65, R67). -/
structure HostSide where
  script     : List Line
  /-- The index of the next line: the only "program counter" (10_state.md R18). -/
  pos        : Nat
  /-- The port's read-data return (20_memory.md R42): the word that the last read gave. -/
  rdata      : Word
  /-- The last STATUS word read, which `brerr` looks at. -/
  lastStatus : Word
  /-- False once an `expect` read another word than the one asserted. -/
  expectOk   : Bool
  deriving DecidableEq, Repr

/-- The state of the machine. STATUS.BUSY is `pending.isSome`: 1 "from the acceptance of a command until its
completion" (R20). ID and CAPS are constants (R25, R26) and CMD holds no value (R19): they are not stored. -/
structure State where
  /-- The parameter MBUF_SIZE (00_scope.md R8). -/
  params     : Params
  /-- The pending command; `none` is STATUS.BUSY = 0 (R34, R39 (a)). -/
  pending    : Option Pending
  /-- STATUS.SCHED_VALID (R20). -/
  schedValid : Bool
  /-- STATUS.DROP (R20). -/
  drop       : Bool
  /-- STATUS.ERR (R20, R102). -/
  err        : ErrCode
  /-- KEYLEN (R21). -/
  keylen     : Word
  /-- MLEN (R22). -/
  mlen       : Word
  /-- RESULT (R23). -/
  result     : Word
  /-- SCHED_INFO (R24). -/
  schedInfo  : Word
  /-- KEY[0..31] (R27). -/
  key        : Vector Byte 32
  /-- IV[0..15] (R28). -/
  iv         : Block
  /-- BLK[0..15] (R29). -/
  blk        : Block
  /-- CHAIN[0..15] (R30). -/
  chain      : Block
  /-- SCHED[0..59], the key-schedule RAM (R31, R40). -/
  sched      : Vector Word 60
  /-- MBUF: the bytes written since reset, by index, indexes strictly rising (20_memory.md R44; assumption 2). -/
  mbuf       : List Host.Cell
  /-- The hidden state of R39 (b) to (d). -/
  engine     : Engine
  /-- The host. -/
  host       : HostSide
  /-- MODEL'S OWN: values of LAT for the next commands accepted, first first; when it is empty, LAT is `Config.lat`
  (assumption 5). -/
  lats       : List Nat
  /-- MODEL'S OWN: the number of free values drawn, to which the next draw is applied (assumption 6). -/
  draws      : Nat
  /-- MODEL'S OWN: the number of times `rst` was asserted in this run. No step reads it; statements tell a reset by it
  (assumption 11). -/
  epoch      : Nat
  deriving DecidableEq, Repr

/-- STATUS.BUSY (R20). -/
def State.busy (s : State) : Bool := s.pending.isSome

/-- The hidden state after reset: "unspecified and unobservable" (R41); zero here (assumption 4). -/
def Engine.reset : Engine :=
  { round := Vector.replicate 16 0, rnd := 0, blockIdx := 0, prev := Vector.replicate 16 0 }

/-- The host before it has done anything: no script, nothing read (assumptions 9, 10 and 12). -/
def HostSide.reset : HostSide :=
  { script := [], pos := 0, rdata := 0, lastStatus := 0, expectOk := true }

/-- The state right after reset (R41, R119, R120), with the default MBUF_SIZE. MBUF lists nothing: its bytes are the
free value `mbuf0`. The stored words of SCHED are "unspecified and unobservable"; zero here (assumption 3). -/
def State.reset : State :=
  { params := Params.default
    pending := none
    schedValid := false
    drop := false
    err := .ok
    keylen := 0
    mlen := 0
    result := 0
    schedInfo := 0
    key := Vector.replicate 32 0
    iv := Vector.replicate 16 0
    blk := Vector.replicate 16 0
    chain := Vector.replicate 16 0
    sched := Vector.replicate 60 0
    mbuf := []
    engine := Engine.reset
    host := HostSide.reset
    lats := []
    draws := 0
    epoch := 0 }

end Sys2Proof.Machine
end

