-- ==== Sys2Proof/Machine/Flags.lean ====
section
/-! DEFINITION. The words that status is read as: STATUS (10_state.md R20) and SCHED_INFO (R24), and the numbers of the
outcome codes (60_exceptions.md R102). -/

namespace Sys2Proof.Machine

/-- The number of an outcome code (R102). -/
def errNumber : ErrCode → BitVec 4
  | .ok => 0
  | .illegalCmd => 1
  | .invalidKeyLength => 2
  | .invalidBlockAlignment => 3
  | .noSchedule => 4
  | .bufferRange => 5
  | .bufferOverflow => 6

/-- The word that STATUS reads (R20): ERR in bits 11:8, DROP in bit 2, SCHED_VALID in bit 1, BUSY in bit 0; the
reserved bits 31:12 and 7:3 read 0. -/
def statusWord (s : State) : Word :=
  (0 : BitVec 20) ++ errNumber s.err ++ (0 : BitVec 5) ++ BitVec.ofBool s.drop ++ BitVec.ofBool s.schedValid ++
    BitVec.ofBool s.busy

/-- STATUS.ERR of a STATUS word, bits 11:8 (R20). -/
def statusErr (w : Word) : BitVec 4 := w.extractLsb' 8 4

/-- STATUS.BUSY of a STATUS word, bit 0 (R20). -/
def statusBusy (w : Word) : Bool := w.getLsbD 0

/-- The bit of a word written to STATUS that clears DROP, bit 2 (R20). -/
def clearsDrop (w : Word) : Bool := w.getLsbD 2

/-- SCHED_INFO of a schedule: NWORDS in bits 23:16, NR in 15:8, NK in 7:0 (R24, R74). -/
def schedInfoWord (nk nr nwords : Nat) : Word :=
  (0 : BitVec 8) ++ BitVec.ofNat 8 nwords ++ BitVec.ofNat 8 nr ++ BitVec.ofNat 8 nk

/-- SCHED_INFO.NR (R24). -/
def infoNr (w : Word) : Nat := (w.extractLsb' 8 8).toNat

/-- SCHED_INFO.NWORDS (R24). -/
def infoNwords (w : Word) : Nat := (w.extractLsb' 16 8).toNat

/-- The word that SCHED_INFO reads: "when STATUS.SCHED_VALID = 0, all fields read 0" (R24). -/
def schedInfoRead (s : State) : Word := if s.schedValid then s.schedInfo else 0

/-- The word that SCHED[i] reads: the stored word when a schedule is valid and i < NWORDS, and 0 otherwise (R31). -/
def schedRead (s : State) (i : Fin 60) : Word :=
  if s.schedValid ∧ i.val < infoNwords s.schedInfo then s.sched[i.val] else 0

end Sys2Proof.Machine
end

