-- ==== Sys2Proof/Machine/Operands.lean ====
section
/-! DEFINITION. The operand decodes of the commands (30_encoding.md R61): the key length, the message length, the stored
schedule; and the checks that more than one command makes (43_cbc.md R91, 60_exceptions.md R107). -/

namespace Sys2Proof.Machine

/-- L, the key length in bytes (00_scope.md R7). -/
def keyBytes : KeySize → Nat
  | .k128 => 16
  | .k192 => 24
  | .k256 => 32

/-- Nk = L/4 (R7). -/
def keyNk (ks : KeySize) : Nat := keyBytes ks / 4

/-- Nr = Nk + 6 (R7). -/
def keyNr (ks : KeySize) : Nat := keyNk ks + 6

/-- The schedule length Nb·(Nr+1) = 4·(Nr+1) (R7). -/
def keyNwords (ks : KeySize) : Nat := 4 * (keyNr ks + 1)

/-- KEYLEN, "the whole 32-bit value", as a key size: 16, 24 or 32, and nothing else (R61 (a), 10_state.md R21). -/
def keySizeOf (keylen : Word) : Option KeySize :=
  if keylen = 16 then some .k128
  else if keylen = 24 then some .k192
  else if keylen = 32 then some .k256
  else none

/-- KEY[0..L-1]: the bytes that key expansion reads; the others are ignored (10_state.md R27). -/
def State.keyOperand (s : State) (ks : KeySize) : List Byte := s.key.toList.take (keyBytes ks)

/-- MLEN as a length, if MLEN ≤ MBUF_SIZE: the first check of every command that reads it (10_state.md R22, R61 (b)). -/
def State.messageLength? (s : State) : Option Nat :=
  if s.mlen.toNat ≤ s.params.mbufSize then some s.mlen.toNat else none

/-- The key size and the block count n = MLEN div 16 of a CBC command, after the three checks of R91 in their order:
BUFFER_RANGE, INVALID_KEY_LENGTH, INVALID_BLOCK_ALIGNMENT. -/
def State.cbcOperands (s : State) : Except ErrCode (KeySize × Nat) :=
  match s.messageLength? with
  | none => .error .bufferRange
  | some n =>
    match keySizeOf s.keylen with
    | none => .error .invalidKeyLength
    | some ks => if n % 16 = 0 then .ok (ks, n / 16) else .error .invalidBlockAlignment

/-- SCHED[0..4·(Nr+1)-1] for the stored NR: the schedule operand of ENCBLK and DECBLK (R61 (c), 41_forward_cipher.md
R84). -/
def State.storedSchedule (s : State) : List Word := s.sched.toList.take (4 * (infoNr s.schedInfo + 1))

end Sys2Proof.Machine
end

