-- ==== Sys2Proof/Machine/Ops.lean ====
section
/-! DEFINITION. The shared operations on the state: the message buffer (20_memory.md R44, R45; 00_scope.md R11), the
acceptance of a command (10_state.md R34), its end (60_exceptions.md R104, R105), the schedule store (40_key_schedule.md
R74), and reset (70_reset_and_hazards.md R119). -/

namespace Sys2Proof.Machine

/-! ### The message buffer -/

/-- The canonical form of a memory: indexes strictly rising, so none is listed twice. -/
abbrev Memory.wf (m : List Host.Cell) : Prop := m.Pairwise fun c d => c.1 < d.1

/-- The byte listed at an index. WHAT AN UNLISTED INDEX HOLDS: no written value (assumption 2). -/
def Memory.lookup : List Host.Cell → Nat → Option Byte
  | [], _ => none
  | c :: m, a => if c.1 = a then some c.2 else Memory.lookup m a

/-- Write one byte, in canonical form. -/
def Memory.write : List Host.Cell → Nat → Byte → List Host.Cell
  | [], a, b => [(a, b)]
  | c :: m, a, b =>
    if a < c.1 then (a, b) :: c :: m
    else if a = c.1 then (a, b) :: m
    else c :: Memory.write m a b

/-- Write bytes at consecutive indexes, the first at `a`. -/
def Memory.writeBytes : List Host.Cell → Nat → List Byte → List Host.Cell
  | m, _, [] => m
  | m, a, b :: bs => Memory.writeBytes (Memory.write m a b) (a + 1) bs

/-- MBUF[a]: the byte last written there since reset, and the free value `mbuf0` where none was (20_memory.md R45). -/
def State.mbufByte (s : State) (a : Nat) : Byte :=
  (Memory.lookup s.mbuf a).getD (Config.mbuf0 a)

/-- `MemRead(a, 16)` as a block (00_scope.md R11). -/
def State.memReadBlock (s : State) (a : Nat) : Block := Vector.ofFn fun k => s.mbufByte (a + k.val)

/-- `MemWrite(a, n, V)` with n = len(V) (00_scope.md R11). -/
def State.memWrite (s : State) (a : Nat) (bs : List Byte) : State :=
  { s with mbuf := Memory.writeBytes s.mbuf a bs }

/-- The port word MBUF[4q..4q+3] (R44). -/
def State.mbufWord (s : State) (q : Nat) : Word :=
  be32 (s.mbufByte (4 * q)) (s.mbufByte (4 * q + 1)) (s.mbufByte (4 * q + 2)) (s.mbufByte (4 * q + 3))

/-! ### The life of a command -/

/-- LAT of the next command accepted: the value given as data, else the free value (R36; assumption 5). -/
def State.nextLat (s : State) (v : Word) : Nat := s.lats.headD (Config.lat v s.draws)

/-- ACCEPTANCE of the command word v (10_state.md R34): BUSY <- 1, ERR <- 0, and v is latched; nothing else of the
block changes. -/
def State.accept (s : State) (v : Word) : State :=
  { s with
    pending := some { word := v, wait := s.nextLat v }
    err := .ok
    lats := s.lats.tail
    draws := s.draws + 1 }

/-- The command word that completes in this step, if there is one. -/
def State.dueWord (s : State) : Option Word :=
  match s.pending with
  | some ⟨w, 0⟩ => some w
  | _ => none

/-- One turn of the host passes of the latency of a pending command (R36). -/
def State.tick (s : State) : State :=
  match s.pending with
  | some p => { s with pending := some { p with wait := p.wait - 1 } }
  | none => s

/-- `raise Error(code)`: THE ONE WAY A COMMAND FAILS (60_exceptions.md R104). "At completion STATUS.ERR <- code and
STATUS.BUSY <- 0, and no other state is written." The block has no trap: nothing is saved, no mode changes and no
control is transferred (R110), and there is no return from an error (R111). -/
def State.raiseError (s : State) (code : ErrCode) : State :=
  { s with pending := none, err := code }

/-- `complete()`: STATUS.ERR <- 0 and STATUS.BUSY <- 0 (60_exceptions.md R105). -/
def State.complete (s : State) : State :=
  { s with pending := none, err := .ok }

/-- A host write is dropped because BUSY = 1 (10_state.md R37). -/
def State.dropWrite (s : State) : State := { s with drop := true }

/-- A host write of v to STATUS: it clears DROP if bit 2 of v is 1, and "changes nothing else" (R20). -/
def State.writeStatus (s : State) (v : Word) : State :=
  { s with drop := s.drop && !clearsDrop v }

/-! ### The schedule -/

/-- SCHED after `for i in 0 .. len(w)-1: SCHED[i] <- w[i]`: the words above keep their contents (40_key_schedule.md R74
and its corner case (e)). -/
def storeSched (old : Vector Word 60) (w : List Word) : Vector Word 60 :=
  Vector.ofFn fun i => w.getD i.val old[i.val]

/-- The schedule w of a key of size ks is stored: SCHED, SCHED_INFO, and SCHED_VALID <- 1 (R74, 43_cbc.md R92). -/
def State.loadSchedule (s : State) (ks : KeySize) (w : List Word) : State :=
  { s with
    sched := storeSched s.sched w
    schedInfo := schedInfoWord (keyNk ks) (keyNr ks) (keyNwords ks)
    schedValid := true }

/-! ### Reset -/

/-- `rst` is asserted (70_reset_and_hazards.md R119): every piece of the block's state takes its value after reset, and
a pending command is discarded. The parameter and the host, which are not the block's state, stay (assumption 11).
MBUF lists nothing, so that it reads as `mbuf0` again (assumption 2). -/
def State.resetBlock (s : State) : State :=
  { State.reset with
    params := s.params
    host := s.host
    lats := s.lats
    draws := s.draws
    epoch := s.epoch + 1 }

end Sys2Proof.Machine
end

