-- ==== Sys2Proof/Machine/ForwardCipher.lean ====
section
/-! DEFINITION. The forward-cipher round pipeline and ENCBLK (41_forward_cipher.md R78 to R84). The round state is
S[0..15], with row r of column c the byte S[4c + r] (R78). -/

namespace Sys2Proof.Machine

/-- `AddRoundKey(S, w, rnd)` (R79). -/
def addRoundKey (st : Block) (w : List Word) (rnd : Nat) : Block :=
  Vector.ofFn fun k => st[k.val] ^^^ wordByte (w.getD (4 * rnd + k.val / 4) 0) (k.val % 4)

/-- `SubBytes(S)` (R80). -/
def subBytes (st : Block) : Block := Vector.ofFn fun k => sbox st[k.val]

/-- `ShiftRows(S)`: S'[4c + r] = S[4·((c + r) mod 4) + r] (R81). -/
def shiftRows (st : Block) : Block :=
  Vector.ofFn fun k => st[4 * ((k.val / 4 + k.val % 4) % 4) + k.val % 4]

/-- Row r of a column after `MixColumns`, the circulant [02 03 01 01] (R82). -/
def mixRow (a0 a1 a2 a3 : Byte) : Nat → Byte
  | 0 => gmul 0x02 a0 ^^^ gmul 0x03 a1 ^^^ a2 ^^^ a3
  | 1 => a0 ^^^ gmul 0x02 a1 ^^^ gmul 0x03 a2 ^^^ a3
  | 2 => a0 ^^^ a1 ^^^ gmul 0x02 a2 ^^^ gmul 0x03 a3
  | _ => gmul 0x03 a0 ^^^ a1 ^^^ a2 ^^^ gmul 0x02 a3

/-- `MixColumns(S)`, each column on its own (R82). -/
def mixColumns (st : Block) : Block :=
  Vector.ofFn fun k =>
    mixRow st[4 * (k.val / 4)] st[4 * (k.val / 4) + 1] st[4 * (k.val / 4) + 2] st[4 * (k.val / 4) + 3] (k.val % 4)

/-- A middle round of `Cipher` (R83). -/
def cipherRound (w : List Word) (rnd : Nat) (st : Block) : Block :=
  addRoundKey (mixColumns (shiftRows (subBytes st))) w rnd

/-- The middle rounds 1 .. n of `Cipher`, in order (R83). -/
def cipherRounds (w : List Word) : Nat → Block → Block
  | 0, st => st
  | n + 1, st => cipherRound w (n + 1) (cipherRounds w n st)

/-- `Cipher(in, w, Nr)` (R83). -/
def cipher (inp : Block) (w : List Word) (nr : Nat) : Block :=
  addRoundKey (shiftRows (subBytes (cipherRounds w (nr - 1) (addRoundKey inp w 0)))) w nr

/-- The forward round pipeline runs on a block: its round state ends as the result, and its round counter as Nr
(10_state.md R39 (b); assumption 4). -/
def State.runCipher (s : State) (inp : Block) (w : List Word) (nr : Nat) : State :=
  { s with engine := { s.engine with round := cipher inp w nr, rnd := nr } }

/-- ENCBLK (R84). -/
def execEncblk (s : State) : Host.Outcome State Fault Refusal :=
  if s.schedValid then
    let s' := s.runCipher s.blk s.storedSchedule (infoNr s.schedInfo)
    .next { s' with blk := s'.engine.round }.complete
  else
    .next (s.raiseError .noSchedule)

end Sys2Proof.Machine
end

