-- ==== Sys2Proof/Machine/InverseCipher.lean ====
section
/-! DEFINITION. The inverse-cipher round pipeline and DECBLK (42_inverse_cipher.md R85 to R90). -/

namespace Sys2Proof.Machine

/-- `InvSubBytes(S)` (R86). -/
def invSubBytes (st : Block) : Block := Vector.ofFn fun k => invSbox st[k.val]

/-- `InvShiftRows(S)`: S'[4c + r] = S[4·((c - r) mod 4) + r], with (c - r) mod 4 in 0..3 (R87). -/
def invShiftRows (st : Block) : Block :=
  Vector.ofFn fun k => st[4 * ((k.val / 4 + 4 - k.val % 4) % 4) + k.val % 4]

/-- Row r of a column after `InvMixColumns`, the circulant [0e 0b 0d 09] (R88). -/
def invMixRow (a0 a1 a2 a3 : Byte) : Nat → Byte
  | 0 => gmul 0x0e a0 ^^^ gmul 0x0b a1 ^^^ gmul 0x0d a2 ^^^ gmul 0x09 a3
  | 1 => gmul 0x09 a0 ^^^ gmul 0x0e a1 ^^^ gmul 0x0b a2 ^^^ gmul 0x0d a3
  | 2 => gmul 0x0d a0 ^^^ gmul 0x09 a1 ^^^ gmul 0x0e a2 ^^^ gmul 0x0b a3
  | _ => gmul 0x0b a0 ^^^ gmul 0x0d a1 ^^^ gmul 0x09 a2 ^^^ gmul 0x0e a3

/-- `InvMixColumns(S)`, each column on its own (R88). -/
def invMixColumns (st : Block) : Block :=
  Vector.ofFn fun k =>
    invMixRow st[4 * (k.val / 4)] st[4 * (k.val / 4) + 1] st[4 * (k.val / 4) + 2] st[4 * (k.val / 4) + 3] (k.val % 4)

/-- A middle round of `InvCipher` (R89). -/
def invCipherRound (w : List Word) (rnd : Nat) (st : Block) : Block :=
  invSubBytes (invShiftRows (invMixColumns (addRoundKey st w rnd)))

/-- The middle rounds n down to 1 of `InvCipher` (R89). -/
def invCipherRounds (w : List Word) : Nat → Block → Block
  | 0, st => st
  | n + 1, st => invCipherRounds w n (invCipherRound w (n + 1) st)

/-- `InvCipher(in, w, Nr)` (R89). -/
def invCipher (inp : Block) (w : List Word) (nr : Nat) : Block :=
  addRoundKey (invCipherRounds w (nr - 1) (invSubBytes (invShiftRows (addRoundKey inp w nr)))) w 0

/-- The inverse round pipeline runs on a block: its round state ends as the result, and its round counter, which runs
down from Nr, as 0 (10_state.md R39 (b); assumption 4). -/
def State.runInvCipher (s : State) (inp : Block) (w : List Word) (nr : Nat) : State :=
  { s with engine := { s.engine with round := invCipher inp w nr, rnd := 0 } }

/-- DECBLK (R90). -/
def execDecblk (s : State) : Host.Outcome State Fault Refusal :=
  if s.schedValid then
    let s' := s.runInvCipher s.blk s.storedSchedule (infoNr s.schedInfo)
    .next { s' with blk := s'.engine.round }.complete
  else
    .next (s.raiseError .noSchedule)

end Sys2Proof.Machine
end

