-- ==== Sys2Proof/Machine/KeySchedule.lean ====
section
/-! DEFINITION. The key-schedule engine and KEYEXP (40_key_schedule.md R69 to R74). -/

namespace Sys2Proof.Machine

/-- `Rcon[j] = be32(rc[j], 0x00, 0x00, 0x00)` (R69). -/
def rcon (j : Nat) : Word := be32 (rcTable.getD j 0) 0x00 0x00 0x00

/-- `SubWord(w)`: the S-box on each byte (R70). -/
def subWord (w : Word) : Word :=
  be32 (sbox (wordByte w 0)) (sbox (wordByte w 1)) (sbox (wordByte w 2)) (sbox (wordByte w 3))

/-- `RotWord(w)`: the bytes one position left (R71). -/
def rotWord (w : Word) : Word := be32 (wordByte w 1) (wordByte w 2) (wordByte w 3) (wordByte w 0)

/-- `temp` of `Expand` for word i, from the word before it (R72). -/
def expandTemp (nk i : Nat) (before : Word) : Word :=
  if i % nk = 0 then subWord (rotWord before) ^^^ rcon (i / nk)
  else if nk > 6 ∧ i % nk = 4 then subWord before
  else before

/-- One turn of the second loop of `Expand`, with i = the number of words so far: w[i] <- w[i-Nk] ^ temp (R72). -/
def expandStep (nk : Nat) (w : List Word) : List Word :=
  w ++ [w.getD (w.length - nk) 0 ^^^ expandTemp nk w.length (w.getD (w.length - 1) 0)]

/-- The words of `Expand` after `n` turns of its second loop (R72). -/
def expandLoop (nk : Nat) : Nat → List Word → List Word
  | 0, w => w
  | n + 1, w => expandStep nk (expandLoop nk n w)

/-- `Expand(K)`, a pure function of the key bytes: Nk words copied from the key, and the others derived, up to
N = 4·(Nr+1) (R72). -/
def expand (k : List Byte) : List Word :=
  expandLoop (k.length / 4) (4 * (k.length / 4 + 7) - k.length / 4) (wordsOf k)

/-- KEYEXP (R74). -/
def execKeyexp (s : State) : Host.Outcome State Fault Refusal :=
  match keySizeOf s.keylen with
  | none => .next (s.raiseError .invalidKeyLength)
  | some ks => .next (s.loadSchedule ks (expand (s.keyOperand ks))).complete

end Sys2Proof.Machine
end

