-- ==== Sys2Proof/Machine/Cbc.lean ====
section
/-! DEFINITION. The CBC mode controller: CBCENC and CBCDEC (43_cbc.md R91 to R96). -/

namespace Sys2Proof.Machine

/-- What both CBC commands do once their checks pass (R92, R93, R95): the schedule w is stored as KEYEXP stores it,
CHAIN <- IV, and the block counter starts at 0 (10_state.md R39 (c)). -/
def State.cbcStart (s : State) (ks : KeySize) (w : List Word) : State :=
  let s' := s.loadSchedule ks w
  { s' with chain := s.iv, engine := { s.engine with blockIdx := 0 } }

/-- The block counter goes to the next block. -/
def State.nextBlock (s : State) : State :=
  { s with engine := { s.engine with blockIdx := s.engine.blockIdx + 1 } }

/-- One turn of the loop of CBCENC (R93): C = Cipher(P ^ CHAIN), Ci replaces Pi, and CHAIN <- C "only after Ci is
complete" (R94). -/
def cbcEncBlock (w : List Word) (nr : Nat) (s : State) : State :=
  let i := s.engine.blockIdx
  let s1 := s.runCipher (xorBlock (s.memReadBlock (16 * i)) s.chain) w nr
  let c := s1.engine.round
  let s2 := s1.memWrite (16 * i) c.toList
  { s2 with chain := c }.nextBlock

/-- PREV <- Ci: the current ciphertext block is "captured before it is overwritten" (R95, R96). -/
def State.capturePrev (s : State) (c : Block) : State :=
  { s with engine := { s.engine with prev := c } }

/-- One turn of the loop of CBCDEC (R95): PREV <- Ci, P = InvCipher(PREV) ^ CHAIN, Pi replaces Ci, and CHAIN <- PREV,
"the original ciphertext Ci, not Pi". -/
def cbcDecBlock (w : List Word) (nr : Nat) (s : State) : State :=
  let i := s.engine.blockIdx
  let s1 := s.capturePrev (s.memReadBlock (16 * i))
  let s2 := s1.runInvCipher s1.engine.prev w nr
  let p := xorBlock s2.engine.round s2.chain
  let s3 := s2.memWrite (16 * i) p.toList
  { s3 with chain := s3.engine.prev }.nextBlock

/-- A block loop of n turns, in order (R93, R95). -/
def blockLoop (turn : State → State) : Nat → State → State
  | 0, s => s
  | n + 1, s => turn (blockLoop turn n s)

/-- CBCENC (R93). -/
def execCbcenc (s : State) : Host.Outcome State Fault Refusal :=
  match s.cbcOperands with
  | .error code => .next (s.raiseError code)
  | .ok (ks, n) =>
    let w := expand (s.keyOperand ks)
    .next (blockLoop (cbcEncBlock w (keyNr ks)) n (s.cbcStart ks w)).complete

/-- CBCDEC (R95). -/
def execCbcdec (s : State) : Host.Outcome State Fault Refusal :=
  match s.cbcOperands with
  | .error code => .next (s.raiseError code)
  | .ok (ks, n) =>
    let w := expand (s.keyOperand ks)
    .next (blockLoop (cbcDecBlock w (keyNr ks)) n (s.cbcStart ks w)).complete

end Sys2Proof.Machine
end

