-- ==== Sys2Proof/Machine/Padding.lean ====
section
/-! DEFINITION. The PKCS#7 padding engine: PAD, PADLEN and UNPAD (44_padding.md R97 to R101). -/

namespace Sys2Proof.Machine

/-- `PadLength(n)` (R97): the last byte of MBUF[0..n-1], and no other (R98); 0 is the sentinel of invalid padding. -/
def State.padLength (s : State) (n : Nat) : Nat :=
  if n = 0 then 0
  else
    let v := (s.mbufByte (n - 1)).toNat
    if v = 0 ∨ v > 16 ∨ v > n then 0 else v

/-- k = 16 - (n mod 16), the number and the value of the pad bytes (R99). -/
def padCount (n : Nat) : Nat := 16 - n % 16

/-- RESULT <- zext_32(k) (10_state.md R23). -/
def State.setResult (s : State) (k : Nat) : State := { s with result := BitVec.ofNat 32 k }

/-- MLEN <- n (10_state.md R22). -/
def State.setMlen (s : State) (n : Nat) : State := { s with mlen := BitVec.ofNat 32 n }

/-- PAD (R99). -/
def execPad (s : State) : Host.Outcome State Fault Refusal :=
  match s.messageLength? with
  | none => .next (s.raiseError .bufferRange)
  | some n =>
    let k := padCount n
    if n + k > s.params.mbufSize then .next (s.raiseError .bufferOverflow)
    else .next (((s.memWrite n (List.replicate k (BitVec.ofNat 8 k))).setMlen (n + k)).setResult k).complete

/-- PADLEN (R100). -/
def execPadlen (s : State) : Host.Outcome State Fault Refusal :=
  match s.messageLength? with
  | none => .next (s.raiseError .bufferRange)
  | some n => .next (s.setResult (s.padLength n)).complete

/-- UNPAD (R101). -/
def execUnpad (s : State) : Host.Outcome State Fault Refusal :=
  match s.messageLength? with
  | none => .next (s.raiseError .bufferRange)
  | some n =>
    let p := s.padLength n
    .next ((s.setMlen (n - p)).setResult p).complete

end Sys2Proof.Machine
end

