-- ==== Sys2Proof/Machine/Dispatch.lean ====
section
/-! DEFINITION. The command executed: one arm for each command of 30_encoding.md R60. `exec i s` is the COMPLETION of the
command i (10_state.md R36, R105): its whole body on the operands of s, and the end of BUSY. -/

namespace Sys2Proof.Machine

def exec (i : Instr) (s : State) : Host.Outcome State Fault Refusal :=
  match i with
  | .keyexp => Sys2Proof.Machine.execKeyexp s
  | .encblk => Sys2Proof.Machine.execEncblk s
  | .decblk => Sys2Proof.Machine.execDecblk s
  | .cbcenc => Sys2Proof.Machine.execCbcenc s
  | .cbcdec => Sys2Proof.Machine.execCbcdec s
  | .pad => Sys2Proof.Machine.execPad s
  | .padlen => Sys2Proof.Machine.execPadlen s
  | .unpad => Sys2Proof.Machine.execUnpad s

end Sys2Proof.Machine
end

