-- ==== Sys2Proof/Machine/HostPort.lean ====
section
/-! DEFINITION. The host port: the register map (10_state.md R15, R32), and what a host read and a host write do, idle
and while BUSY = 1 (10_state.md R19 to R38; 20_memory.md R44, R48, R49). -/

namespace Sys2Proof.Machine

/-- The row of the register map at the word offset o (R15). -/
def targetAt (p : Params) (o : Nat) : Target :=
  if o = 0x000 then .cmd
  else if o = 0x001 then .status
  else if o = 0x002 then .keylen
  else if o = 0x003 then .mlen
  else if o = 0x004 then .result
  else if o = 0x005 then .schedInfo
  else if o = 0x006 then .id
  else if o = 0x007 then .caps
  else if h : 0x008 ≤ o ∧ o < 0x010 then .key ⟨o - 0x008, by omega⟩
  else if h : 0x010 ≤ o ∧ o < 0x014 then .iv ⟨o - 0x010, by omega⟩
  else if h : 0x014 ≤ o ∧ o < 0x018 then .blk ⟨o - 0x014, by omega⟩
  else if h : 0x018 ≤ o ∧ o < 0x01C then .chain ⟨o - 0x018, by omega⟩
  else if h : 0x040 ≤ o ∧ o < 0x07C then .sched ⟨o - 0x040, by omega⟩
  else if 0x400 ≤ o ∧ 4 * o < p.aperture then .mbuf (o - 0x400)
  else .reserved

/-- The row of the register map that a word offset selects (R15). -/
def decodeTarget (p : Params) (woff : BitVec 19) : Target := targetAt p woff.toNat

/-- The word offset of a row of the register map (R15); a reserved place has none of its own. -/
def targetWoff : Target → Option (BitVec 19)
  | .cmd => some 0x000
  | .status => some 0x001
  | .keylen => some 0x002
  | .mlen => some 0x003
  | .result => some 0x004
  | .schedInfo => some 0x005
  | .id => some 0x006
  | .caps => some 0x007
  | .key q => some (BitVec.ofNat 19 (0x008 + q.val))
  | .iv q => some (BitVec.ofNat 19 (0x010 + q.val))
  | .blk q => some (BitVec.ofNat 19 (0x014 + q.val))
  | .chain q => some (BitVec.ofNat 19 (0x018 + q.val))
  | .sched i => some (BitVec.ofNat 19 (0x040 + i.val))
  | .mbuf q => some (BitVec.ofNat 19 (0x400 + q))
  | .reserved => none

/-- ID, "the constant 0x41455331" (R25). -/
def idWord : Word := 0x41455331

/-- The word that an idle read of a place of the register map gives (R19 to R31, R44); a reserved place reads 0
(R32). -/
def State.registerWord (s : State) : Target → Word
  | .cmd => 0
  | .status => statusWord s
  | .keylen => s.keylen
  | .mlen => s.mlen
  | .result => s.result
  | .schedInfo => schedInfoRead s
  | .id => idWord
  | .caps => BitVec.ofNat 32 s.params.mbufSize
  | .key q => arrayWord s.key q.val (by omega)
  | .iv q => arrayWord s.iv q.val (by omega)
  | .blk q => arrayWord s.blk q.val (by omega)
  | .chain q => arrayWord s.chain q.val (by omega)
  | .sched i => schedRead s i
  | .mbuf q => s.mbufWord q
  | .reserved => 0

/-- The places whose read is defined while BUSY = 1: STATUS, ID and CAPS (R38), and a reserved offset, which reads 0 in
every state (R32, 20_memory.md R49; R38 names no reserved offset: assumption 6). -/
def definedWhileBusy : Target → Bool
  | .status => true
  | .id => true
  | .caps => true
  | .reserved => true
  | _ => false

/-- Whether a host read takes a free value: BUSY = 1, and the offset is that of a register other than STATUS, ID and CAPS
(R38, 93_implementation_defined.md U7). -/
def State.readIsDraw (s : State) (woff : BitVec 19) : Bool :=
  s.busy && !definedWhileBusy (decodeTarget s.params woff)

/-- The word that `Read(off)` returns (R38, 20_memory.md R42, R48). -/
def State.readWord (s : State) (woff : BitVec 19) : Word :=
  if s.readIsDraw woff then Config.busyRead s.draws else s.registerWord (decodeTarget s.params woff)

/-- The state after `Read(off)`: "reads have no side effects anywhere" (20_memory.md R48); only the model's own count of
free values moves when one was drawn (assumption 6). -/
def State.afterRead (s : State) (woff : BitVec 19) : State :=
  if s.readIsDraw woff then { s with draws := s.draws + 1 } else s

/-- A host write of v while BUSY = 1: STATUS is written, a write to another register is dropped and sets DROP (R37), and a
write to a reserved offset is ignored and "sets no status bit" (R32, 20_memory.md R49; assumption 7). -/
def State.writeBusy (s : State) (t : Target) (v : Word) : State :=
  match t with
  | .status => s.writeStatus v
  | .reserved => s
  | _ => s.dropWrite

/-- A host write of v while BUSY = 0: CMD accepts a command (R34), RW registers take the word (R21, R22, R27 to R29,
R44), STATUS clears DROP (R20); a write to a read-only or a reserved place is ignored (R32, R49). -/
def State.writeIdle (s : State) (t : Target) (v : Word) : State :=
  match t with
  | .cmd => s.accept v
  | .status => s.writeStatus v
  | .keylen => { s with keylen := v }
  | .mlen => { s with mlen := v }
  | .result => s
  | .schedInfo => s
  | .id => s
  | .caps => s
  | .key q => { s with key := setArrayWord s.key q.val v }
  | .iv q => { s with iv := setArrayWord s.iv q.val v }
  | .blk q => { s with blk := setArrayWord s.blk q.val v }
  | .chain _ => s
  | .sched _ => s
  | .mbuf q => s.memWrite (4 * q) (wordBytes v)
  | .reserved => s

/-- The state after `Write(off, v)` (20_memory.md R42). -/
def State.hostWrite (s : State) (woff : BitVec 19) (v : Word) : State :=
  if s.busy then s.writeBusy (decodeTarget s.params woff) v else s.writeIdle (decodeTarget s.params woff) v

end Sys2Proof.Machine
end

