-- ==== Sys2Proof/Machine/HostScript.lean ====
section
/-! DEFINITION. Host scripts (30_encoding.md R65 to R67): the expansion and assembly of what is written, and one turn of
the host. -/

namespace Sys2Proof.Machine

/-! ### Expansion and assembly -/

/-- `wr OFF, V` (R65). -/
def wrLine (woff : BitVec 19) (v : Word) : Line := .htx (.write woff v)

/-- `for q = 0..len/4-1: wr A+4q, be32(b[4q..4q+3])`, with A + 0 at the word offset `woff` (R67). -/
def wrArray (woff : BitVec 19) (bs : List Byte) : List Line :=
  (wordsOf bs).zipIdx.map fun (w, q) => wrLine (woff + BitVec.ofNat 19 q) w

/-- "HEX padded with zero bytes up to a multiple of 4" (R67, `ldmsg`). -/
def padToWord (bs : List Byte) : List Byte := bs ++ List.replicate ((4 - bs.length % 4) % 4) 0

/-- The expansion of a script line (R65 to R67). A branch still names its label. Of an `ldkey` or `ldarr` that is not
well-formed, the bytes after the last whole word are not written (assumption 15). -/
def expandStmt : Stmt → List Line
  | .wr off v => [wrLine off.woff v]
  | .rd off => [.htx (.read off.woff)]
  | .cmd i => [wrLine Off.cmd.woff (encode i)]
  | .wait => [.wait]
  | .ldkey bs => wrLine Off.keylen.woff (BitVec.ofNat 32 bs.length) :: wrArray (Off.key 0).woff bs
  | .ldarr a bs => wrArray a.woff bs
  | .ldmsg bs => wrArray (Off.mbuf 0).woff (padToWord bs) ++ [wrLine Off.mlen.woff (BitVec.ofNat 32 bs.length)]
  | .expect off v => [.expect off.woff v]
  | .brerr c l => [.brerr c l]
  | .brres v l => [.brres v l]
  | .jmp l => [.jmp l]
  | .halt => [.halt]
  | .label _ => []

/-- The index that a label stands for in the expanded script; a label that is not defined is the end of the script
(a well-formed script has none). -/
def labelPos : List Stmt → Nat → Nat
  | [], _ => 0
  | st :: p, l => if st = .label l then 0 else (expandStmt st).length + labelPos p l

/-- A line with its branch target renamed. -/
def retarget (f : Nat → Nat) : Line → Line
  | .brerr c l => .brerr c (f l)
  | .brres v l => .brres v (f l)
  | .jmp l => .jmp (f l)
  | x => x

/-- The script that the host executes, from the script as written: every line expanded, every label an index. -/
def assemble (p : List Stmt) : List Line :=
  (p.flatMap expandStmt).map (retarget (labelPos p))

/-! ### One turn of the host -/

/-- The word offset of STATUS. -/
def statusWoff : BitVec 19 := 0x001

/-- The word offset of RESULT. -/
def resultWoff : BitVec 19 := 0x004

/-- The host goes to the next line: "that index advances by exactly one per transaction" (10_state.md R18). -/
def State.advance (s : State) : State := { s with host := { s.host with pos := s.host.pos + 1 } }

/-- The host goes to line l (R67). -/
def State.goto (s : State) (l : Nat) : State := { s with host := { s.host with pos := l } }

/-- The host keeps the word v that a read of `woff` returned; a word read from STATUS is "the last STATUS word read"
(R67). -/
def State.keepRead (s : State) (woff : BitVec 19) (v : Word) : State :=
  { s with host := { s.host with
      rdata := v
      lastStatus := if woff = statusWoff then v else s.host.lastStatus } }

/-- `Read(off)` on the port: the word goes to the host. -/
def State.hostRead (s : State) (woff : BitVec 19) : State :=
  (s.afterRead woff).keepRead woff (s.readWord woff)

/-- A host transaction is performed "once, completely" (20_memory.md R42). -/
def State.transact (s : State) : Htx → State
  | .read woff => s.hostRead woff
  | .write woff v => s.hostWrite woff v

/-- A host assertion of `expect` is checked against the word just read (R67; assumption 10). -/
def State.assertRead (s : State) (v : Word) : State :=
  { s with host := { s.host with expectOk := s.host.expectOk && s.host.rdata == v } }

/-- A turn in which `rst` is asserted (70_reset_and_hazards.md R119). A transaction issued meanwhile has no effect:
"reads return 0 and writes are ignored". DESIGN CHOICE: that holds of ID and CAPS too, which R25 and R26 say read their
constants "in every state, reset included" (assumption 16). -/
def State.resetTurn (s : State) (t : Option Htx) : State :=
  match t with
  | some (.read woff) => s.resetBlock.keepRead woff 0
  | some (.write _ _) => s.resetBlock
  | none => s.resetBlock

/-- What the host does on a line (R65, R67). -/
def State.runLine (s : State) : Line → State
  | .htx t => (s.transact t).advance
  | .wait =>
    if statusBusy (s.readWord statusWoff) then s.hostRead statusWoff else (s.hostRead statusWoff).advance
  | .expect woff v => ((s.hostRead woff).assertRead v).advance
  | .brerr c l => if statusErr s.host.lastStatus = c then s.goto l else s.advance
  | .brres v l => if s.readWord resultWoff = v then (s.hostRead resultWoff).goto l else (s.hostRead resultWoff).advance
  | .jmp l => s.goto l
  | .halt => s
  | .idle => s.advance
  | .rst t => (s.resetTurn t).advance

/-- The line that the host is at, if its script is not over. -/
def State.currentLine (s : State) : Option Line := s.host.script[s.host.pos]?

/-- One turn of the host; after the end of its script it does nothing. -/
def State.hostTurn (s : State) : State :=
  match s.currentLine with
  | some l => s.runLine l
  | none => s

/-- One turn in which no command completes: a turn passes of the latency of a pending command, and the host has its
turn (10_state.md R36; assumption 8). -/
def State.hostCycle (s : State) : State := s.tick.hostTurn

end Sys2Proof.Machine
end

