-- ==== Sys2Proof/Machine/Step.lean ====
section
/-! DEFINITION. One step of the machine: a pending command completes, or the host has a turn (10_state.md R36). -/

namespace Sys2Proof.Machine

/-- One step. If the pending command's latency has passed, it completes: its word is decoded (30_encoding.md R59), a
command runs, and an illegal word ends with ILLEGAL_CMD and no other effect (60_exceptions.md R106). Otherwise the
host has a turn. -/
def step (s : State) : Host.Outcome State Fault Refusal :=
  match s.dueWord with
  | some w =>
    match decodeCmdw w with
    | .ok i => exec i s
    | .error _ => .next (s.raiseError .illegalCmd)
  | none => .next s.hostCycle

/-- The state in which the next step runs the command word given as the opcode table numbers its bits: it is the
accepted command, and its latency has passed (assumption 12). -/
def State.withFetchWord (s : State) (nbits w : Nat) : State :=
  { s with pending := some { word := tableWord nbits w, wait := 0 } }

end Sys2Proof.Machine
end

