-- ==== Sys2Proof/Safety.lean ====
section
/-! DEFINITION. What a state in order is, and the terms that the statements use: the invariant of the machine, the checks
of each command in their order (60_exceptions.md R107), and the blocks of a message. -/

namespace Sys2Proof.Machine

/-- SCHED and SCHED_INFO "hold a schedule produced by a successful key expansion" (10_state.md R20, R24): for some key K
of one of the three lengths, SCHED_INFO is that length's and SCHED[0..NWORDS-1] is Expand(K). -/
def State.HoldsSchedule (s : State) : Prop :=
  ∃ (ks : KeySize) (k : List Byte), k.length = keyBytes ks ∧
    s.schedInfo = schedInfoWord (keyNk ks) (keyNr ks) (keyNwords ks) ∧
    s.sched.toList.take (keyNwords ks) = expand k

/-- The invariant of the machine: what holds of every state that a run reaches. -/
structure State.Inv (s : State) : Prop where
  /-- MBUF is in canonical form. -/
  mbuf_wf : Memory.wf s.mbuf
  /-- Every byte listed lies below MBUF_SIZE: no access is made outside the buffer (20_memory.md R44). -/
  mbuf_bounded : ∀ c ∈ s.mbuf, c.1 < s.params.mbufSize
  /-- Without a valid schedule SCHED_INFO is 0 (R24, R41). -/
  info_invalid : s.schedValid = false → s.schedInfo = 0
  /-- With SCHED_VALID = 1 there is a schedule (R20, R24). -/
  schedule_valid : s.schedValid = true → s.HoldsSchedule
  /-- RESULT holds a count in 0..16 (R23). -/
  result_le : s.result.toNat ≤ 16
  /-- While BUSY = 1, STATUS reads ERR = 0 (R34, R38). -/
  busy_err : s.busy = true → s.err = .ok
  /-- The round counter stays in 0..Nr, and Nr is at most 14 (R39 (b)). -/
  rnd_le : s.engine.rnd ≤ 14
  /-- The block counter stays in 0..MBUF_SIZE/16 (R39 (c)). -/
  block_le : s.engine.blockIdx ≤ s.params.mbufSize / 16

/-- A check of a command: the code that it reports and whether it applies (R107). -/
structure Check where
  code    : ErrCode
  applies : Bool
  deriving DecidableEq, Repr

/-- BUFFER_RANGE: MLEN > MBUF_SIZE (R102). -/
def State.checkRange (s : State) : Check := ⟨.bufferRange, s.mlen.toNat > s.params.mbufSize⟩

/-- INVALID_KEY_LENGTH: KEYLEN is not 16, 24 or 32 (R102). -/
def State.checkKey (s : State) : Check :=
  ⟨.invalidKeyLength, s.keylen.toNat ≠ 16 ∧ s.keylen.toNat ≠ 24 ∧ s.keylen.toNat ≠ 32⟩

/-- INVALID_BLOCK_ALIGNMENT: MLEN mod 16 ≠ 0 (R102). -/
def State.checkAlignment (s : State) : Check := ⟨.invalidBlockAlignment, s.mlen.toNat % 16 ≠ 0⟩

/-- NO_SCHEDULE: STATUS.SCHED_VALID = 0 (R102). -/
def State.checkSchedule (s : State) : Check := ⟨.noSchedule, s.schedValid = false⟩

/-- BUFFER_OVERFLOW: MLEN + k > MBUF_SIZE with k = 16 - (MLEN mod 16) (R102, R99). -/
def State.checkOverflow (s : State) : Check :=
  ⟨.bufferOverflow, s.mlen.toNat + (16 - s.mlen.toNat % 16) > s.params.mbufSize⟩

/-- The checks of a command, in order: the rows of R107. -/
def commandChecks (s : State) : Instr → List Check
  | .keyexp => [s.checkKey]
  | .encblk => [s.checkSchedule]
  | .decblk => [s.checkSchedule]
  | .cbcenc => [s.checkRange, s.checkKey, s.checkAlignment]
  | .cbcdec => [s.checkRange, s.checkKey, s.checkAlignment]
  | .pad => [s.checkRange, s.checkOverflow]
  | .padlen => [s.checkRange]
  | .unpad => [s.checkRange]

/-- "A command reports exactly one code: the first in its row below that applies" (R107), and OK if none does (R102). -/
def firstCode : List Check → ErrCode
  | [] => .ok
  | c :: cs => if c.applies then c.code else firstCode cs

/-- The code that a command reports in a state. -/
def reportedCode (s : State) (i : Instr) : ErrCode := firstCode (commandChecks s i)

/-- The message block Mi = MBUF[16i..16i+15]. -/
def State.messageBlock (s : State) (i : Nat) : Block := s.memReadBlock (16 * i)

/-- C(i-1) for block i: IV for the first block, else the ciphertext block before it, which `c` gives (43_cbc.md R93,
R95). -/
def chainInput (iv : Block) (c : Nat → Block) : Nat → Block
  | 0 => iv
  | i + 1 => c i

/-- The line that the host is at is a write to a register that would be lost: BUSY = 1, and the offset is not STATUS and
not reserved (10_state.md R37, R32; 70_reset_and_hazards.md R123; assumption 7). -/
def State.writeAtRisk (s : State) : Bool :=
  match s.currentLine with
  | some (.htx (.write woff _)) => s.busy && woff != statusWoff && decodeTarget s.params woff != .reserved
  | _ => false

/-- What every register holds after reset (10_state.md R41), SCHED and SCHED_INFO as the host reads them. MBUF's bytes
are the free value `mbuf0` (20_memory.md R45). -/
structure State.AfterReset (s : State) : Prop where
  pending : s.pending = none
  schedValid : s.schedValid = false
  drop : s.drop = false
  err : s.err = .ok
  keylen : s.keylen = 0
  mlen : s.mlen = 0
  result : s.result = 0
  schedInfo : schedInfoRead s = 0
  idRead : s.readWord 0x006 = 0x41455331
  capsRead : s.readWord 0x007 = BitVec.ofNat 32 s.params.mbufSize
  key : ∀ j (h : j < 32), s.key[j] = 0
  iv : ∀ j (h : j < 16), s.iv[j] = 0
  blk : ∀ j (h : j < 16), s.blk[j] = 0
  chain : ∀ j (h : j < 16), s.chain[j] = 0
  sched : ∀ i, schedRead s i = 0
  mbuf : ∀ a, s.mbufByte a = Config.mbuf0 a

/-- The registers and the buffer that a command takes its operands from or leaves its results in, and the parameter,
are those of another state: all of the block but the pending command and DROP. -/
structure State.SameBlock (s t : State) : Prop where
  params : t.params = s.params
  schedValid : t.schedValid = s.schedValid
  err : t.err = s.err
  keylen : t.keylen = s.keylen
  mlen : t.mlen = s.mlen
  result : t.result = s.result
  schedInfo : t.schedInfo = s.schedInfo
  key : t.key = s.key
  iv : t.iv = s.iv
  blk : t.blk = s.blk
  chain : t.chain = s.chain
  sched : t.sched = s.sched
  mbuf : t.mbuf = s.mbuf
  engine : t.engine = s.engine
  epoch : t.epoch = s.epoch

/-- A register that the host can write and read back: KEYLEN, MLEN, KEY, IV, BLK and MBUF (R15, access RW). -/
def isRW : Target → Bool
  | .keylen => true
  | .mlen => true
  | .key _ => true
  | .iv _ => true
  | .blk _ => true
  | .mbuf _ => true
  | _ => false

/-- A register that the host can only read (R15, access RO): a write to it is ignored (20_memory.md R49). -/
def isRO : Target → Bool
  | .result => true
  | .schedInfo => true
  | .id => true
  | .caps => true
  | .chain _ => true
  | .sched _ => true
  | _ => false

/-- The line that the host is at asserts `rst`. -/
def State.rstLine (s : State) : Bool :=
  match s.currentLine with
  | some (.rst _) => true
  | _ => false

end Sys2Proof.Machine
end

