-- ==== Sys2Proof/Certificates/Slice0/Obligations.lean ====
section
/-! DEFINITION. The statements about the machine, for the provers. Each docstring names the rules of spec/ it
formalises; what a statement takes from the model's own choices is said there with the log entry. -/

open Sys2Proof Sys2Proof.Machine

/-! ### Encodings -/

/-- R60: the opcode map, and "Full command words are 0x00000001 through 0x00000008". -/
def Obligations.CommandWordsDecode : Prop :=
  (decodeCmdw 0x00000001 = .ok .keyexp ∧ encode .keyexp = 0x00000001) ∧
  (decodeCmdw 0x00000002 = .ok .encblk ∧ encode .encblk = 0x00000002) ∧
  (decodeCmdw 0x00000003 = .ok .decblk ∧ encode .decblk = 0x00000003) ∧
  (decodeCmdw 0x00000004 = .ok .cbcenc ∧ encode .cbcenc = 0x00000004) ∧
  (decodeCmdw 0x00000005 = .ok .cbcdec ∧ encode .cbcdec = 0x00000005) ∧
  (decodeCmdw 0x00000006 = .ok .pad ∧ encode .pad = 0x00000006) ∧
  (decodeCmdw 0x00000007 = .ok .padlen ∧ encode .padlen = 0x00000007) ∧
  (decodeCmdw 0x00000008 = .ok .unpad ∧ encode .unpad = 0x00000008)

/-- R59, R62: the decoder on every 32-bit word. The names of the reasons are the model's. -/
def Obligations.DecoderOnEveryWord : Prop :=
  ∀ v : Word,
    (256 ≤ v.toNat → decodeCmdw v = .error .reservedBitsSet) ∧
    (v.toNat = 0 → decodeCmdw v = .error .opcodeZero) ∧
    (9 ≤ v.toNat → v.toNat < 256 → decodeCmdw v = .error .opcodeUnassigned) ∧
    (∀ i, decodeCmdw v = .ok i ↔ v = encode i)

/-- R58, R59, R65: a well-formed command's word decodes to it, and a host transaction's encoding to it and to nothing
else. The wire form's absent data word of a read is the model's (log 14). -/
def Obligations.EncodingsRoundTrip : Prop :=
  (∀ i : Instr, i.wf = true → decodeCmdw (encode i) = .ok i) ∧
  (∀ t : Htx, t.encode.decode = some t) ∧
  (∀ (x : HtxWire) (t : Htx), x.decode = some t → t.encode = x)

/-- R15: the register map. A word offset that is not reserved is that of the register it selects, and each register is
selected by its own word offset. -/
def Obligations.RegisterMapRoundTrip : Prop :=
  (∀ (p : Params) (woff : BitVec 19), decodeTarget p woff ≠ .reserved →
    targetWoff (decodeTarget p woff) = some woff) ∧
  (∀ (p : Params) (t : Target) (woff : BitVec 19), targetWoff t = some woff →
    (∀ q, t = .mbuf q → 4 * q < p.mbufSize) → decodeTarget p woff = t)

/-- R32, R15: which byte offsets 4·woff are reserved. -/
def Obligations.ReservedOffsetsExactly : Prop :=
  ∀ (p : Params) (woff : BitVec 19), decodeTarget p woff = .reserved ↔
    (0x070 ≤ 4 * woff.toNat ∧ 4 * woff.toNat ≤ 0x0FC) ∨
    (0x1F0 ≤ 4 * woff.toNat ∧ 4 * woff.toNat ≤ 0xFFC) ∨
    p.aperture ≤ 4 * woff.toNat

/-! ### The step -/

/-- R36, R59: when the pending command's latency has passed and its word decodes to a command, the step is that command;
while latency is left, and while no command is pending, the step is a turn of the host. That one or the other happens,
and never both, is the model's (log 8). -/
def Obligations.StepRunsDecodedCommand : Prop :=
  (∀ (s : State) (w : Word) (i : Instr), s.pending = some ⟨w, 0⟩ → decodeCmdw w = .ok i → i.wf = true →
    step s = exec i s) ∧
  (∀ (s : State) (w : Word) (n : Nat), s.pending = some ⟨w, n + 1⟩ →
    step s = .next ({ s with pending := some ⟨w, n⟩ }).hostTurn) ∧
  (∀ s : State, s.pending = none → step s = .next s.hostTurn)

/-- R106: an illegal word completes with ILLEGAL_CMD and has no other effect. -/
def Obligations.IllegalWordCompletes : Prop :=
  ∀ (s : State) (w : Word) (r : Reject), s.pending = some ⟨w, 0⟩ → decodeCmdw w = .error r →
    step s = .next { s with pending := none, err := .illegalCmd }

/-- R49, R110, R36: no step faults or refuses: no transaction faults, an error is an outcome code, and every word
completes. -/
def Obligations.NoStepStops : Prop :=
  ∀ s : State, ∃ t, step s = .next t

/-- R36, R59, R106, R131: an accepted command completes. Where `rst` is not asserted in the turns that its latency has left,
the state after them holds the same block and the same pending word, and the step after them is exec of the decoded word, or
for an illegal word the end with ILLEGAL_CMD. In any case BUSY is 0 after at most one step more than its latency has
left (before that only by `rst`, which discards the command, R119). The latency counted in turns of the host is the model's
(logs 5 and 8). -/
def Obligations.AcceptedCommandCompletes : Prop :=
  ∀ (s : State) (p : Pending), s.pending = some p →
    (∃ k, k ≤ p.wait + 1 ∧ ∃ t, Sys2Proof.core.run k s = .next t ∧ State.busy t = false) ∧
    ((∀ j, j < p.wait → ∀ u, Sys2Proof.core.run j s = .next u → State.rstLine u = false) →
      ∃ u, Sys2Proof.core.run p.wait s = .next u ∧ s.SameBlock u ∧ State.pending u = some ⟨p.word, 0⟩ ∧
        (∀ i, decodeCmdw p.word = .ok i → Sys2Proof.core.run (p.wait + 1) s = exec i u) ∧
        (∀ r, decodeCmdw p.word = .error r →
          Sys2Proof.core.run (p.wait + 1) s = .next (State.raiseError u .illegalCmd)))

/-- R35, R37, R55: from acceptance to completion the operands and the pending word do not change, whatever the host does,
if `rst` is not asserted: so the command computes from what the registers and MBUF held when it was accepted. -/
def Obligations.OperandsHeldWhilePending : Prop :=
  ∀ (k : Nat) (s t : State) (w : Word) (n : Nat), s.pending = some ⟨w, n⟩ → k ≤ n →
    (∀ j, j < k → ∀ u, Sys2Proof.core.run j s = .next u → State.rstLine u = false) →
    Sys2Proof.core.run k s = .next t → t.pending = some ⟨w, n - k⟩ ∧ s.SameBlock t

/-! ### Reset and the invariant -/

/-- R41: the state right after reset; MBUF is the free value `mbuf0` of R45. -/
def Obligations.ResetValues : Prop := State.reset.AfterReset

/-- R119, R41: a turn in which `rst` is asserted, at any time, resets the block and discards a pending command; a read
issued meanwhile returns 0 and a write has no effect (for a read of ID or CAPS: log 16). That the host and the parameter
stay, and the model's count of resets, are log 11's. -/
def Obligations.RstResetsTheBlock : Prop :=
  ∀ (s : State) (x : Option Htx), s.dueWord = none → s.currentLine = some (.rst x) →
    ∃ t, step s = .next t ∧ t.AfterReset ∧ t.params = s.params ∧ t.epoch = s.epoch + 1 ∧
      t.host.script = s.host.script ∧ t.host.pos = s.host.pos + 1 ∧
      (∀ woff, x = some (.read woff) → t.host.rdata = 0) ∧
      ((∀ woff, x ≠ some (.read woff)) → t.host = { s.host with pos := s.host.pos + 1 })

/-- The state right after reset meets the invariant. -/
def Obligations.ResetMeetsInvariant : Prop := State.reset.Inv

/-- R20, R23, R24, R34, R38, R39, R44: every step keeps the invariant: MBUF is canonical and inside its bounds, a valid
schedule is an expansion of a key, RESULT is a count in 0..16, ERR is 0 while BUSY = 1, and the counters keep their
ranges. (The counters' values between commands are the model's, log 4.) -/
def Obligations.StepKeepsInvariant : Prop :=
  ∀ s t : State, s.Inv → step s = .next t → t.Inv

/-! ### The host port -/

/-- R34: a write of v to CMD while BUSY = 0 is accepted. The count of draws and the list of latencies are the model's
(logs 5 and 6). -/
def Obligations.CmdWriteIsAccepted : Prop :=
  ∀ (s : State) (v : Word), s.busy = false →
    s.hostWrite 0x000 v =
      { s with
        pending := some ⟨v, s.nextLat v⟩
        err := .ok
        lats := s.lats.tail
        draws := s.draws + 1 } ∧
    (s.hostWrite 0x000 v).busy = true

/-- R37: while BUSY = 1 a write to any register other than STATUS changes nothing but DROP, which it sets. R32, R49: a write
to a reserved offset changes nothing (that this holds while BUSY = 1, against the letter of R37, is log 7). -/
def Obligations.BusyWritesAreDropped : Prop :=
  ∀ (s : State) (woff : BitVec 19) (v : Word), s.busy = true → woff ≠ 0x001 →
    (decodeTarget s.params woff ≠ .reserved → s.hostWrite woff v = { s with drop := true }) ∧
    (decodeTarget s.params woff = .reserved → s.hostWrite woff v = s)

/-- R20: the bits of STATUS, and what a write to STATUS does, busy or not. -/
def Obligations.StatusFieldsAndWrite : Prop :=
  ∀ (s : State) (v : Word),
    s.readWord 0x001 = statusWord s ∧
    (statusWord s).getLsbD 0 = s.busy ∧
    (statusWord s).getLsbD 1 = s.schedValid ∧
    (statusWord s).getLsbD 2 = s.drop ∧
    (statusWord s).extractLsb' 8 4 = errNumber s.err ∧
    (∀ k, (3 ≤ k ∧ k ≤ 7) ∨ (12 ≤ k ∧ k ≤ 31) → (statusWord s).getLsbD k = false) ∧
    s.hostWrite 0x001 v = { s with drop := s.drop && !v.getLsbD 2 }

/-- R38: reads while BUSY = 1. A read of a register other than STATUS, ID and CAPS is the free value, whatever it is, and
moves only the model's count of draws (log 6). A reserved offset reads 0 (R32, R49; against the letter of R38, log 6). -/
def Obligations.BusyReads : Prop :=
  ∀ s : State, s.Inv → s.busy = true →
    s.readWord 0x001 =
      (0 : BitVec 20) ++ (0 : BitVec 4) ++ (0 : BitVec 5) ++ BitVec.ofBool s.drop ++
        BitVec.ofBool s.schedValid ++ (1 : BitVec 1) ∧
    s.readWord 0x006 = 0x41455331 ∧
    s.readWord 0x007 = BitVec.ofNat 32 s.params.mbufSize ∧
    (∀ woff : BitVec 19, woff = 0x001 ∨ woff = 0x006 ∨ woff = 0x007 → s.afterRead woff = s) ∧
    (∀ woff : BitVec 19, decodeTarget s.params woff = .reserved → s.readWord woff = 0 ∧ s.afterRead woff = s) ∧
    (∀ woff : BitVec 19, woff ≠ 0x001 → woff ≠ 0x006 → woff ≠ 0x007 → decodeTarget s.params woff ≠ .reserved →
      s.readWord woff = Config.busyRead s.draws ∧ s.afterRead woff = { s with draws := s.draws + 1 })

/-- R25, R26: ID and CAPS read their constants in every state, and a write to them is ignored (read only; while BUSY = 1
it is dropped, R37). MBUF_SIZE is legal (R8). -/
def Obligations.IdAndCapsAreConstant : Prop :=
  ∀ s : State,
    s.readWord 0x006 = 0x41455331 ∧
    (s.readWord 0x007).toNat = s.params.mbufSize ∧
    (∀ v, s.busy = false → s.hostWrite 0x006 v = s ∧ s.hostWrite 0x007 v = s) ∧
    (∀ v, s.busy = true → s.hostWrite 0x006 v = { s with drop := true } ∧
      s.hostWrite 0x007 v = { s with drop := true }) ∧
    s.params.mbufSize % 16 = 0 ∧ 16 ≤ s.params.mbufSize ∧ s.params.mbufSize ≤ 1048576

/-- R32, R49: in every state a reserved offset reads 0, and neither a read of it nor a write to it changes any state (while
BUSY = 1: logs 6 and 7). While BUSY = 0, a write to a read-only register is ignored, a read of CMD returns 0, and no read
changes the state (R48). -/
def Obligations.IdleReservedAndReadOnly : Prop :=
  ∀ (s : State) (woff : BitVec 19) (v : Word),
    (decodeTarget s.params woff = .reserved →
      s.readWord woff = 0 ∧ s.afterRead woff = s ∧ s.hostWrite woff v = s) ∧
    (s.busy = false →
      s.afterRead woff = s ∧
      s.readWord 0x000 = 0 ∧
      (isRO (decodeTarget s.params woff) = true → s.hostWrite woff v = s))

/-- R16, R44: byte j of an array is bits [31 - 8·(j mod 4) : 24 - 8·(j mod 4)] of the word at base + 4·(j div 4); SCHED
words are read as stored (those that R31 shows). -/
def Obligations.ByteArraysAreBigEndian : Prop :=
  ∀ s : State, s.busy = false →
    (∀ j (h : j < 32), (s.readWord (BitVec.ofNat 19 (0x008 + j / 4))).extractLsb' (24 - 8 * (j % 4)) 8 = s.key[j]) ∧
    (∀ j (h : j < 16), (s.readWord (BitVec.ofNat 19 (0x010 + j / 4))).extractLsb' (24 - 8 * (j % 4)) 8 = s.iv[j]) ∧
    (∀ j (h : j < 16), (s.readWord (BitVec.ofNat 19 (0x014 + j / 4))).extractLsb' (24 - 8 * (j % 4)) 8 = s.blk[j]) ∧
    (∀ j (h : j < 16), (s.readWord (BitVec.ofNat 19 (0x018 + j / 4))).extractLsb' (24 - 8 * (j % 4)) 8 = s.chain[j]) ∧
    (∀ j, j < s.params.mbufSize →
      (s.readWord (BitVec.ofNat 19 (0x400 + j / 4))).extractLsb' (24 - 8 * (j % 4)) 8 = s.mbufByte j) ∧
    (∀ i (h : i < 60), s.schedValid = true → i < infoNwords s.schedInfo →
      s.readWord (BitVec.ofNat 19 (0x040 + i)) = s.sched[i])

/-- R52, R15: while BUSY = 0, a read of a RW register after a write to it returns the word written, and every other
offset reads as before. -/
def Obligations.ReadAfterWrite : Prop :=
  ∀ (s : State) (woff : BitVec 19) (v : Word), s.busy = false → isRW (decodeTarget s.params woff) = true →
    (s.hostWrite woff v).readWord woff = v ∧
    ∀ other, other ≠ woff → (s.hostWrite woff v).readWord other = s.readWord other

/-- R24, R31: while BUSY = 0, SCHED_INFO and SCHED read what is stored when a schedule is valid, and 0 otherwise; with the
invariant, a valid SCHED_INFO is one of three words. -/
def Obligations.ScheduleReads : Prop :=
  ∀ s : State, s.Inv → s.busy = false →
    (s.schedValid = false → s.readWord 0x005 = 0) ∧
    (s.schedValid = true → s.readWord 0x005 = s.schedInfo ∧
      (s.schedInfo = 0x002C0A04 ∨ s.schedInfo = 0x00340C06 ∨ s.schedInfo = 0x003C0E08)) ∧
    (∀ i (h : i < 60), s.readWord (BitVec.ofNat 19 (0x040 + i)) =
      if s.schedValid = true ∧ i < (s.schedInfo.extractLsb' 16 8).toNat then s.sched[i] else 0)

/-! ### Rules of the whole machine -/

/-- R33: SCHED_VALID is "cleared only by reset". -/
def Obligations.SchedValidClearedOnlyByReset : Prop :=
  ∀ s t : State, step s = .next t → s.schedValid = true → t.schedValid = false →
    s.dueWord = none ∧ s.rstLine = true

/-- R20, R33, R37: DROP is set only by a host write while BUSY = 1 to another offset than STATUS (and no reserved one, R32,
log 7), and cleared only by a host write to STATUS with bit 2 = 1, or by reset. -/
def Obligations.DropSetAndClearedOnlySo : Prop :=
  ∀ s t : State, step s = .next t →
    (s.drop = false → t.drop = true → s.dueWord = none ∧ s.writeAtRisk = true) ∧
    (s.drop = true → t.drop = false → s.dueWord = none ∧
      (s.rstLine = true ∨ ∃ v, s.currentLine = some (.htx (.write 0x001 v)) ∧ v.getLsbD 2 = true))

/-- R73, R31: the schedule changes only by a successful KEYEXP, CBCENC or CBCDEC, or by reset. -/
def Obligations.ScheduleChangesOnlyByExpansion : Prop :=
  ∀ s t : State, step s = .next t →
    (t.sched ≠ s.sched ∨ t.schedInfo ≠ s.schedInfo ∨ t.schedValid ≠ s.schedValid) →
    (s.dueWord = none ∧ s.rstLine = true) ∨
    ∃ w i, s.dueWord = some w ∧ decodeCmdw w = .ok i ∧ (i = .keyexp ∨ i = .cbcenc ∨ i = .cbcdec) ∧ t.err = .ok

/-- R27, R28, R21, R36: no command writes KEY, IV, KEYLEN, DROP, the parameter or anything of the host, and every command
ends BUSY. -/
def Obligations.CommandsLeaveOperandRegisters : Prop :=
  ∀ (i : Instr) (s t : State), exec i s = .next t →
    t.pending = none ∧ t.key = s.key ∧ t.iv = s.iv ∧ t.keylen = s.keylen ∧ t.drop = s.drop ∧ t.params = s.params ∧
    t.host = s.host ∧ t.lats = s.lats ∧ t.draws = s.draws ∧ t.epoch = s.epoch

/-- R22, R23, R29, R30, R31, R17: each result register is written only by the commands that the spec names for it. -/
def Obligations.ResultsWrittenOnlyByTheirCommands : Prop :=
  ∀ (i : Instr) (s t : State), exec i s = .next t →
    (t.blk ≠ s.blk → i = .encblk ∨ i = .decblk) ∧
    (t.chain ≠ s.chain → i = .cbcenc ∨ i = .cbcdec) ∧
    (t.result ≠ s.result → i = .pad ∨ i = .padlen ∨ i = .unpad) ∧
    (t.mlen ≠ s.mlen → i = .pad ∨ i = .unpad) ∧
    (t.sched ≠ s.sched ∨ t.schedInfo ≠ s.schedInfo ∨ t.schedValid ≠ s.schedValid →
      i = .keyexp ∨ i = .cbcenc ∨ i = .cbcdec) ∧
    (∀ a, t.mbufByte a ≠ s.mbufByte a → i = .cbcenc ∨ i = .cbcdec ∨ i = .pad)

/-- R104: after an error nothing has changed but ERR, and BUSY is 0. -/
def Obligations.ErrorsArePrecise : Prop :=
  ∀ (i : Instr) (s t : State), exec i s = .next t → t.err ≠ .ok →
    t = { s with pending := none, err := t.err }

/-- R107, R102, R106: every command completes with the first code of its row that applies, and with OK if none does; an
illegal word never reports any other code than ILLEGAL_CMD. -/
def Obligations.FirstApplicableCodeReported : Prop :=
  (∀ (i : Instr) (s : State), ∃ t, exec i s = .next t ∧ t.err = reportedCode s i) ∧
  (∀ (s t : State) (w : Word) (r : Reject), s.dueWord = some w → decodeCmdw w = .error r → step s = .next t →
    t.err = .illegalCmd)

/-! ### The key-schedule engine -/

/-- R70, with its example. -/
def Obligations.SubWordSubstitutesBytes : Prop :=
  (∀ b0 b1 b2 b3 : Byte, subWord (be32 b0 b1 b2 b3) = be32 (sbox b0) (sbox b1) (sbox b2) (sbox b3)) ∧
  subWord 0xcf4f3c09 = 0x8a84eb01

/-- R71, with its equivalent form and its example. -/
def Obligations.RotWordRotatesLeft : Prop :=
  (∀ b0 b1 b2 b3 : Byte, rotWord (be32 b0 b1 b2 b3) = be32 b1 b2 b3 b0) ∧
  (∀ w : Word, rotWord w = (w <<< 8) ||| (w >>> 24)) ∧
  rotWord 0x09cf4f3c = 0xcf4f3c09

/-- R68, R69: the S-box is the field inverse followed by the affine map, and rc[j] is the power j-1 of {02} (which the
spec gives from general knowledge). -/
def Obligations.TablesFollowTheirConstructions : Prop :=
  (∀ a : Byte, ∃ b : Byte, (a = 0 → b = 0) ∧ (a ≠ 0 → gmul a b = 1) ∧
    sbox a = b ^^^ b.rotateLeft 1 ^^^ b.rotateLeft 2 ^^^ b.rotateLeft 3 ^^^ b.rotateLeft 4 ^^^ 0x63) ∧
  (∀ j, 1 ≤ j → j ≤ 10 → rcon j = be32 (xtime^[j - 1] 0x01) 0x00 0x00 0x00)

/-- R85: the inverse S-box is the inverse permutation of the S-box. -/
def Obligations.InverseSboxInverts : Prop :=
  ∀ a : Byte, invSbox (sbox a) = a ∧ sbox (invSbox a) = a

/-- R72: `Expand(K)` for each of the three lengths: how many words it has, the words copied from the key, and the
recurrence of the others. -/
def Obligations.ExpandFollowsItsRecurrence : Prop :=
  ∀ k : List Byte, k.length = 16 ∨ k.length = 24 ∨ k.length = 32 →
    (expand k).length = 4 * (k.length / 4 + 6 + 1) ∧
    (∀ i, i < k.length / 4 → (expand k).getD i 0 =
      be32 (k.getD (4 * i) 0) (k.getD (4 * i + 1) 0) (k.getD (4 * i + 2) 0) (k.getD (4 * i + 3) 0)) ∧
    (∀ i, k.length / 4 ≤ i → i < 4 * (k.length / 4 + 6 + 1) → (expand k).getD i 0 =
      (expand k).getD (i - k.length / 4) 0 ^^^
        (if i % (k.length / 4) = 0 then
          subWord (rotWord ((expand k).getD (i - 1) 0)) ^^^ rcon (i / (k.length / 4))
        else if k.length / 4 > 6 ∧ i % (k.length / 4) = 4 then subWord ((expand k).getD (i - 1) 0)
        else (expand k).getD (i - 1) 0))

/-- R74: KEYEXP with a legal KEYLEN completes: the schedule of KEY[0..L-1] is stored, the words above keep their contents,
and nothing else changes. -/
def Obligations.KeyexpStoresTheSchedule : Prop :=
  ∀ (s : State) (ks : KeySize), s.keylen = BitVec.ofNat 32 (keyBytes ks) →
    ∃ t, exec .keyexp s = .next t ∧
      t = { s with
            pending := none
            err := .ok
            schedValid := true
            schedInfo := schedInfoWord (keyNk ks) (keyNr ks) (keyNwords ks)
            sched := t.sched } ∧
      (∀ i (h : i < 60), t.sched[i] =
        if i < keyNwords ks then (expand (s.key.toList.take (keyBytes ks))).getD i 0 else s.sched[i])

/-- R27, R74 corner case (c): KEY bytes at index ≥ L are not read: two states with the same KEYLEN and the same first L key
bytes get the same schedule. -/
def Obligations.KeyBytesBeyondLengthIgnored : Prop :=
  ∀ (s1 s2 t1 t2 : State) (ks : KeySize),
    s1.keylen = BitVec.ofNat 32 (keyBytes ks) → s2.keylen = s1.keylen →
    (∀ j (h : j < 32), j < keyBytes ks → s2.key[j] = s1.key[j]) →
    exec .keyexp s1 = .next t1 → exec .keyexp s2 = .next t2 →
    t2.schedInfo = t1.schedInfo ∧ ∀ i (h : i < 60), i < keyNwords ks → t2.sched[i] = t1.sched[i]

/-! ### The round pipelines -/

/-- R75, R77: the shift-and-add product is the product of polynomials modulo x^8 + x^4 + x^3 + x + 1. -/
def Obligations.GmulIsFieldProduct : Prop :=
  ∀ a b : Byte, gmul a b = fieldMul a b

/-- R81, R87: the two row shifts, as permutations of indices, and that the second undoes the first. -/
def Obligations.RowShiftsPermuteIndices : Prop :=
  ∀ st : Block,
    shiftRows st = #v[st[0], st[5], st[10], st[15], st[4], st[9], st[14], st[3],
      st[8], st[13], st[2], st[7], st[12], st[1], st[6], st[11]] ∧
    invShiftRows st = #v[st[0], st[13], st[10], st[7], st[4], st[1], st[14], st[11],
      st[8], st[5], st[2], st[15], st[12], st[9], st[6], st[3]] ∧
    invShiftRows (shiftRows st) = st

/-- R79, R86, R87, R88: each round transform is undone by its inverse, and AddRoundKey by itself. -/
def Obligations.RoundTransformsAreUndone : Prop :=
  ∀ st : Block,
    invSubBytes (subBytes st) = st ∧ subBytes (invSubBytes st) = st ∧
    invShiftRows (shiftRows st) = st ∧ shiftRows (invShiftRows st) = st ∧
    invMixColumns (mixColumns st) = st ∧ mixColumns (invMixColumns st) = st ∧
    ∀ (w : List Word) (rnd : Nat), addRoundKey (addRoundKey st w rnd) w rnd = st

/-- R89 and AESAB's round-trip property P-RT: InvCipher undoes Cipher and Cipher undoes InvCipher, for every block,
schedule and round count. -/
def Obligations.InverseCipherUndoesCipher : Prop :=
  ∀ (b : Block) (w : List Word) (nr : Nat),
    invCipher (cipher b w nr) w nr = b ∧ cipher (invCipher b w nr) w nr = b

/-- R84: ENCBLK with a valid schedule completes: BLK is Cipher(BLK) under the stored schedule and its NR. The hidden round
state and counter it leaves are the model's (log 4). -/
def Obligations.EncblkEncryptsInPlace : Prop :=
  ∀ s : State, s.schedValid = true →
    ∃ t nr, nr = (s.schedInfo.extractLsb' 8 8).toNat ∧ exec .encblk s = .next t ∧
      t.blk = cipher s.blk (s.sched.toList.take (4 * (nr + 1))) nr ∧
      t = { s with pending := none, err := .ok, blk := t.blk, engine := t.engine } ∧
      t.engine.blockIdx = s.engine.blockIdx ∧ t.engine.prev = s.engine.prev

/-- R90: DECBLK with a valid schedule completes: BLK is InvCipher(BLK) under the stored schedule and its NR. The hidden
round state and counter it leaves are the model's (log 4). -/
def Obligations.DecblkDecryptsInPlace : Prop :=
  ∀ s : State, s.schedValid = true →
    ∃ t nr, nr = (s.schedInfo.extractLsb' 8 8).toNat ∧ exec .decblk s = .next t ∧
      t.blk = invCipher s.blk (s.sched.toList.take (4 * (nr + 1))) nr ∧
      t = { s with pending := none, err := .ok, blk := t.blk, engine := t.engine } ∧
      t.engine.blockIdx = s.engine.blockIdx ∧ t.engine.prev = s.engine.prev

/-- R90 corner case (b), P-RT over the commands: ENCBLK then DECBLK restores BLK, and so does DECBLK then ENCBLK. -/
def Obligations.EncblkDecblkRestoreBlk : Prop :=
  ∀ s t : State, s.schedValid = true →
    (exec .encblk s = .next t → ∃ u, exec .decblk t = .next u ∧ u.blk = s.blk ∧ u.err = .ok) ∧
    (exec .decblk s = .next t → ∃ u, exec .encblk t = .next u ∧ u.blk = s.blk ∧ u.err = .ok)

/-! ### The CBC controller -/

/-- R92, R93, R94: CBCENC on a legal key and an aligned message completes: Ci = Cipher(Pi ^ C(i-1)) with C(-1) = IV for
every block, CHAIN is the last ciphertext block (IV for an empty message), and the fresh schedule is stored. -/
def Obligations.CbcencChainsBlocks : Prop :=
  ∀ (s : State) (ks : KeySize), s.keylen = BitVec.ofNat 32 (keyBytes ks) → s.mlen.toNat ≤ s.params.mbufSize →
    s.mlen.toNat % 16 = 0 →
    ∃ t, exec .cbcenc s = .next t ∧ t.err = .ok ∧ t.busy = false ∧
      (∀ i, i < s.mlen.toNat / 16 → t.messageBlock i =
        cipher (xorBlock (s.messageBlock i) (chainInput s.iv t.messageBlock i))
          (expand (s.key.toList.take (keyBytes ks))) (keyNr ks)) ∧
      t.chain = chainInput s.iv t.messageBlock (s.mlen.toNat / 16) ∧
      t.schedValid = true ∧ t.schedInfo = schedInfoWord (keyNk ks) (keyNr ks) (keyNwords ks) ∧
      (∀ i (h : i < 60), t.sched[i] =
        if i < keyNwords ks then (expand (s.key.toList.take (keyBytes ks))).getD i 0 else s.sched[i])

/-- R92, R95, R96: CBCDEC on a legal key and an aligned message completes: Pi = InvCipher(Ci) ^ C(i-1) with C(-1) = IV and
every C the ORIGINAL ciphertext, CHAIN is the last of them (IV for an empty message), and the fresh schedule is stored. -/
def Obligations.CbcdecUnchainsBlocks : Prop :=
  ∀ (s : State) (ks : KeySize), s.keylen = BitVec.ofNat 32 (keyBytes ks) → s.mlen.toNat ≤ s.params.mbufSize →
    s.mlen.toNat % 16 = 0 →
    ∃ t, exec .cbcdec s = .next t ∧ t.err = .ok ∧ t.busy = false ∧
      (∀ i, i < s.mlen.toNat / 16 → t.messageBlock i =
        xorBlock (invCipher (s.messageBlock i) (expand (s.key.toList.take (keyBytes ks))) (keyNr ks))
          (chainInput s.iv s.messageBlock i)) ∧
      t.chain = chainInput s.iv s.messageBlock (s.mlen.toNat / 16) ∧
      t.schedValid = true ∧ t.schedInfo = schedInfoWord (keyNk ks) (keyNr ks) (keyNwords ks) ∧
      (∀ i (h : i < 60), t.sched[i] =
        if i < keyNwords ks then (expand (s.key.toList.take (keyBytes ks))).getD i 0 else s.sched[i])

/-- R93, R95, R44: the frame of the CBC commands: they store only to MBUF[0..MLEN-1], and write no register but CHAIN,
SCHED, SCHED_INFO, SCHED_VALID, ERR and BUSY (and the hidden state of R39). -/
def Obligations.CbcFrame : Prop :=
  ∀ (i : Instr) (s t : State), i = .cbcenc ∨ i = .cbcdec → exec i s = .next t →
    (∀ a, s.mlen.toNat ≤ a → t.mbufByte a = s.mbufByte a) ∧
    t = { s with
          pending := none
          err := t.err
          schedValid := t.schedValid
          schedInfo := t.schedInfo
          sched := t.sched
          chain := t.chain
          mbuf := t.mbuf
          engine := t.engine }

/-- AESAB's P-CBCRT over the commands: CBCDEC after CBCENC restores every byte of MBUF, and keeps CHAIN. -/
def Obligations.CbcRoundTrip : Prop :=
  ∀ (s t : State) (ks : KeySize), s.keylen = BitVec.ofNat 32 (keyBytes ks) → s.mlen.toNat ≤ s.params.mbufSize →
    s.mlen.toNat % 16 = 0 → exec .cbcenc s = .next t →
    ∃ u, exec .cbcdec t = .next u ∧ u.err = .ok ∧ u.chain = t.chain ∧ ∀ a, u.mbufByte a = s.mbufByte a

/-! ### The padding engine -/

/-- R99: PAD with room for the pad bytes completes: k = 16 - (MLEN mod 16) bytes of value k are appended, MLEN and RESULT
are written, and no other byte and no other register changes. -/
def Obligations.PadAppendsPadBytes : Prop :=
  ∀ s : State, s.mlen.toNat < s.params.mbufSize →
    ∃ t k, k = 16 - s.mlen.toNat % 16 ∧ exec .pad s = .next t ∧
      t.mlen.toNat = s.mlen.toNat + k ∧ t.result.toNat = k ∧
      (∀ a, s.mlen.toNat ≤ a → a < s.mlen.toNat + k → (t.mbufByte a).toNat = k) ∧
      (∀ a, a < s.mlen.toNat ∨ s.mlen.toNat + k ≤ a → t.mbufByte a = s.mbufByte a) ∧
      t = { s with pending := none, err := .ok, mlen := t.mlen, result := t.result, mbuf := t.mbuf }

/-- R99: "BUFFER_OVERFLOW happens exactly when MLEN = MBUF_SIZE", BUFFER_RANGE exactly when MLEN exceeds it, and PAD reports
no other error. -/
def Obligations.PadErrorsExactly : Prop :=
  ∀ s t : State, exec .pad s = .next t →
    (t.err = .bufferOverflow ↔ s.mlen.toNat = s.params.mbufSize) ∧
    (t.err = .bufferRange ↔ s.params.mbufSize < s.mlen.toNat) ∧
    (t.err = .ok ↔ s.mlen.toNat < s.params.mbufSize)

/-- R97, R100: PADLEN with MLEN ≤ MBUF_SIZE completes: RESULT is 0 for an empty message and for a last byte that is 0, exceeds
16 or exceeds MLEN, and that byte's value otherwise; nothing else changes. -/
def Obligations.PadlenReportsLastByte : Prop :=
  ∀ s : State, s.mlen.toNat ≤ s.params.mbufSize →
    ∃ t, exec .padlen s = .next t ∧
      t = { s with pending := none, err := .ok, result := t.result } ∧
      (s.mlen.toNat = 0 → t.result = 0) ∧
      (∀ v, s.mlen.toNat ≠ 0 → v = (s.mbufByte (s.mlen.toNat - 1)).toNat →
        (v = 0 ∨ 16 < v ∨ s.mlen.toNat < v → t.result = 0) ∧
        (v ≠ 0 → v ≤ 16 → v ≤ s.mlen.toNat → t.result.toNat = v))

/-- R97, R101: UNPAD with MLEN ≤ MBUF_SIZE completes: MLEN falls by the pad length, which RESULT reports, and nothing else
changes; with no valid padding MLEN stays and RESULT = 0 (R103). -/
def Obligations.UnpadTruncates : Prop :=
  ∀ s : State, s.mlen.toNat ≤ s.params.mbufSize →
    ∃ t, exec .unpad s = .next t ∧
      t = { s with pending := none, err := .ok, mlen := t.mlen, result := t.result } ∧
      t.mlen.toNat + t.result.toNat = s.mlen.toNat ∧
      (s.mlen.toNat = 0 → t.result = 0) ∧
      (∀ v, s.mlen.toNat ≠ 0 → v = (s.mbufByte (s.mlen.toNat - 1)).toNat →
        (v = 0 ∨ 16 < v ∨ s.mlen.toNat < v → t.result = 0) ∧
        (v ≠ 0 → v ≤ 16 → v ≤ s.mlen.toNat → t.result.toNat = v))

/-- AESAB's P-PADRT and P-PADLEN over the commands: after PAD the length is a multiple of 16, PADLEN reports what PAD
reported, and UNPAD restores MLEN and the message. -/
def Obligations.PadUnpadRoundTrip : Prop :=
  ∀ s t : State, s.mlen.toNat < s.params.mbufSize → exec .pad s = .next t →
    t.mlen.toNat % 16 = 0 ∧
    (∃ p, exec .padlen t = .next p ∧ p.result = t.result ∧ p.err = .ok) ∧
    (∃ u, exec .unpad t = .next u ∧ u.mlen = s.mlen ∧ u.result = t.result ∧ u.err = .ok ∧
      ∀ a, a < s.mlen.toNat → u.mbufByte a = s.mbufByte a)

/-- R98: only the last byte is inspected: two states with the same MLEN, MBUF_SIZE and last message byte get the same RESULT and
the same new MLEN. -/
def Obligations.OnlyLastByteInspected : Prop :=
  ∀ (i : Instr) (s1 s2 t1 t2 : State), i = .padlen ∨ i = .unpad →
    s2.params = s1.params → s2.mlen = s1.mlen → s2.result = s1.result →
    s2.mbufByte (s1.mlen.toNat - 1) = s1.mbufByte (s1.mlen.toNat - 1) →
    exec i s1 = .next t1 → exec i s2 = .next t2 →
    t2.result = t1.result ∧ t2.mlen = t1.mlen ∧ t2.err = t1.err

/-! ### Frames and secrecy of what is not read -/

/-- R74, R84, R90, R100, R101: the frame of the commands that store nothing to MBUF: every byte reads as before, and no
register changes but the ones named (and the hidden state of R39 for ENCBLK and DECBLK). -/
def Obligations.NonStoringCommandsFrame : Prop :=
  ∀ (i : Instr) (s t : State), exec i s = .next t →
    i = .keyexp ∨ i = .encblk ∨ i = .decblk ∨ i = .padlen ∨ i = .unpad →
    (∀ a, t.mbufByte a = s.mbufByte a) ∧
    (i = .keyexp → t = { s with
      pending := none, err := t.err, sched := t.sched, schedInfo := t.schedInfo, schedValid := t.schedValid }) ∧
    (i = .encblk ∨ i = .decblk → t = { s with pending := none, err := t.err, blk := t.blk, engine := t.engine }) ∧
    (i = .padlen → t = { s with pending := none, err := t.err, result := t.result }) ∧
    (i = .unpad → t = { s with pending := none, err := t.err, result := t.result, mlen := t.mlen })

/-- R129, R57: the bytes beyond the message have no effect: two states that differ only in MBUF bytes at index MLEN and above
get the same outcome, the same registers, and the same message. -/
def Obligations.BytesBeyondMessageIgnored : Prop :=
  ∀ (i : Instr) (s1 s2 t1 t2 : State), s2 = { s1 with mbuf := s2.mbuf } →
    (∀ a, a < s1.mlen.toNat → s2.mbufByte a = s1.mbufByte a) →
    exec i s1 = .next t1 → exec i s2 = .next t2 →
    t2 = { t1 with mbuf := t2.mbuf } ∧ ∀ a, a < t1.mlen.toNat → t2.mbufByte a = t1.mbufByte a

/-! ### The host script -/

/-- R18, R42, R65: a transaction line is performed once, and the index advances by exactly one. A write line performs the host
write; a read line puts the word into the read-data return, keeps a word read from STATUS, and changes nothing else. In the
same step one turn passes of a pending command's latency (`tick`, logs 5 and 8), a busy read moves the model's count of
draws (log 6), and what the host keeps of the words read is log 9's. -/
def Obligations.TransactionsAdvanceByOne : Prop :=
  ∀ s : State, s.dueWord = none →
    (∀ woff v, s.currentLine = some (.htx (.write woff v)) →
      ∃ t, step s = .next t ∧ t = (s.tick.hostWrite woff v).advance ∧
        t.host = { s.host with pos := s.host.pos + 1 }) ∧
    (∀ woff, s.currentLine = some (.htx (.read woff)) →
      ∃ t, step s = .next t ∧
        t = { s.tick with
              draws := (s.afterRead woff).draws
              host := { s.host with
                pos := s.host.pos + 1
                rdata := s.readWord woff
                lastStatus := if woff = 0x001 then s.readWord woff else s.host.lastStatus } } ∧
        (s.busy = false → t = { s with host := t.host }))

/-- R67: `wait` polls STATUS, and goes on only when it reads BUSY = 0. -/
def Obligations.WaitPollsUntilIdle : Prop :=
  ∀ s : State, s.dueWord = none → s.currentLine = some .wait →
    ∃ t, step s = .next t ∧ t.host.rdata = statusWord s ∧ t.host.lastStatus = statusWord s ∧
      t.host.pos = (if s.busy = true then s.host.pos else s.host.pos + 1) ∧ t.busy = s.busy

/-- R67: the host-side lines act only on the host; a line that reads draws as the read does (logs 6 and 9), and one turn
passes of a pending command's latency (`tick`, logs 5 and 8). That a branch takes one turn and names an index is log 9's, that
`halt` lasts for ever while a command still completes is log 8's, and that `expect` records its outcome and goes on is
log 10's. While BUSY = 0 the word that `brres` reads is RESULT; while BUSY = 1 it is a draw (R38). -/
def Obligations.BranchesActOnTheHostOnly : Prop :=
  ∀ (s : State) (l : Nat), s.dueWord = none →
    (∀ c, s.currentLine = some (.brerr c l) → step s = .next { s.tick with host := { s.host with
      pos := if s.host.lastStatus.extractLsb' 8 4 = c then l else s.host.pos + 1 } }) ∧
    (s.currentLine = some (.jmp l) → step s = .next { s.tick with host := { s.host with pos := l } }) ∧
    (s.currentLine = some .halt → step s = .next s.tick) ∧
    (∀ v, s.currentLine = some (.brres v l) → step s = .next { s.tick with
      draws := (s.afterRead 0x004).draws
      host := { s.host with
        rdata := s.readWord 0x004
        pos := if s.readWord 0x004 = v then l else s.host.pos + 1 } }) ∧
    (∀ woff v, s.currentLine = some (.expect woff v) → step s = .next { s.tick with
      draws := (s.afterRead woff).draws
      host := { s.host with
        rdata := s.readWord woff
        lastStatus := if woff = 0x001 then s.readWord woff else s.host.lastStatus
        expectOk := s.host.expectOk && (s.readWord woff == v)
        pos := s.host.pos + 1 } }) ∧
    (s.busy = false → s.readWord 0x004 = s.result ∧ ∀ woff, (s.afterRead woff).draws = s.draws) ∧
    (s.busy = true → s.readWord 0x004 = Config.busyRead s.draws ∧ (s.afterRead 0x004).draws = s.draws + 1)

/-- R65, R66, R67: what `wr`, `rd`, `cmd`, `ldkey`, `ldarr` and `ldmsg` stand for, line by line: `ldmsg` pads with zero bytes
and writes MLEN last. A branch of the assembled script goes to the line that follows its label: a label is the index of
that line among the expanded ones (log 9). The well-formedness of the lines is in part the model's (log 15). -/
def Obligations.PseudoInstructionsExpand : Prop :=
  (∀ i : Instr, expandStmt (.cmd i) = [.htx (.write 0x000 (encode i))]) ∧
  (∀ (a : Off) (v : Word), expandStmt (.wr a v) = [.htx (.write (BitVec.ofNat 19 (a.byteOffset / 4)) v)] ∧
    expandStmt (.rd a) = [.htx (.read (BitVec.ofNat 19 (a.byteOffset / 4)))]) ∧
  (∀ bs : List Byte, (Stmt.ldkey bs).wf = true →
    (expandStmt (.ldkey bs)).length = 1 + bs.length / 4 ∧
    (expandStmt (.ldkey bs))[0]? = some (.htx (.write 0x002 (BitVec.ofNat 32 bs.length))) ∧
    ∀ q, q < bs.length / 4 → (expandStmt (.ldkey bs))[q + 1]? = some (.htx (.write (BitVec.ofNat 19 (0x008 + q))
      (be32 (bs.getD (4 * q) 0) (bs.getD (4 * q + 1) 0) (bs.getD (4 * q + 2) 0) (bs.getD (4 * q + 3) 0))))) ∧
  (∀ (a : Off) (bs : List Byte), (Stmt.ldarr a bs).wf = true →
    (expandStmt (.ldarr a bs)).length = bs.length / 4 ∧
    ∀ q, q < bs.length / 4 →
      (expandStmt (.ldarr a bs))[q]? = some (.htx (.write (BitVec.ofNat 19 ((a.byteOffset + 4 * q) / 4))
        (be32 (bs.getD (4 * q) 0) (bs.getD (4 * q + 1) 0) (bs.getD (4 * q + 2) 0) (bs.getD (4 * q + 3) 0))))) ∧
  (∀ bs : List Byte, (Stmt.ldmsg bs).wf = true →
    (expandStmt (.ldmsg bs)).length = (bs.length + 3) / 4 + 1 ∧
    (∀ q, q < (bs.length + 3) / 4 → (expandStmt (.ldmsg bs))[q]? = some (.htx (.write (BitVec.ofNat 19 (0x400 + q))
      (be32 (bs.getD (4 * q) 0) (bs.getD (4 * q + 1) 0) (bs.getD (4 * q + 2) 0) (bs.getD (4 * q + 3) 0))))) ∧
    (expandStmt (.ldmsg bs))[(bs.length + 3) / 4]? = some (.htx (.write 0x003 (BitVec.ofNat 32 bs.length)))) ∧
  (∀ (p p1 p2 q1 q2 : List Stmt) (l : Nat) (st : Stmt) (x : Nat → Line),
    p = p1 ++ st :: p2 → p = q1 ++ .label l :: q2 → Stmt.label l ∉ q1 →
    (st = .jmp l ∧ x = .jmp) ∨ (∃ c, st = .brerr c l ∧ x = .brerr c) ∨ (∃ v, st = .brres v l ∧ x = .brres v) →
    (assemble p)[(p1.flatMap expandStmt).length]? = some (x (q1.flatMap expandStmt).length))
end

