-- ==== Sys2Proof/Laws/Bytes.lean ====
section
/-! SUPPORT. The laws of the byte order: bytes of a packed word, a word packed from its bytes, and words of byte arrays
read and written. -/

namespace Sys2Proof.Machine

/-- The bytes of a packed word, from byte 0 on. -/
theorem wordByte_be32 (b0 b1 b2 b3 : Byte) :
    wordByte (be32 b0 b1 b2 b3) 0 = b0 ∧ wordByte (be32 b0 b1 b2 b3) 1 = b1 ∧
    wordByte (be32 b0 b1 b2 b3) 2 = b2 ∧ wordByte (be32 b0 b1 b2 b3) 3 = b3 := by
  unfold wordByte be32
  refine ⟨?_, ?_, ?_, ?_⟩ <;> (ext i hi; simp only [BitVec.getElem_extractLsb', BitVec.getLsbD_append]) <;>
    split_ifs <;> first | omega | (rw [BitVec.getLsbD_eq_getElem (by omega)]; congr 1; omega)

/-- A word is packed from its bytes. -/
theorem be32_wordByte (w : Word) : be32 (wordByte w 0) (wordByte w 1) (wordByte w 2) (wordByte w 3) = w := by
  unfold wordByte be32
  apply BitVec.eq_of_getLsbD_eq
  intro i hi
  simp only [BitVec.getLsbD_append, BitVec.getLsbD_extractLsb']
  interval_cases i <;> simp

/-- The byte of an array word that the host port shows at byte r. -/
theorem wordByte_arrayWord {n : Nat} (a : Vector Byte n) (q r : Nat) (h : 4 * q + 3 < n) (hr : r < 4) :
    wordByte (arrayWord a q h) r = a[4 * q + r] := by
  obtain ⟨h0, h1, h2, h3⟩ := wordByte_be32 a[4 * q] a[4 * q + 1] a[4 * q + 2] a[4 * q + 3]
  unfold arrayWord
  interval_cases r
  · simpa using h0
  · exact h1
  · exact h2
  · exact h3

/-- The word written to a byte array is read back. -/
theorem arrayWord_setArrayWord {n : Nat} (a : Vector Byte n) (q : Nat) (w : Word) (h : 4 * q + 3 < n) :
    arrayWord (setArrayWord a q w) q h = w := by
  have e : ∀ r, r < 4 → (4 * q + r) / 4 = q ∧ (4 * q + r) % 4 = r := fun r hr => by omega
  have e0 : 4 * q / 4 = q ∧ 4 * q % 4 = 0 := by omega
  simp [arrayWord, setArrayWord, e0, e 1, e 2, e 3, be32_wordByte]

/-- The other words of a byte array stay as they were. -/
theorem arrayWord_setArrayWord_of_ne {n : Nat} (a : Vector Byte n) (p q : Nat) (w : Word) (h : 4 * p + 3 < n)
    (hpq : p ≠ q) : arrayWord (setArrayWord a q w) p h = arrayWord a p h := by
  have e : ∀ r, r < 4 → (4 * p + r) / 4 ≠ q := fun r hr => by omega
  simp [arrayWord, setArrayWord, hpq, e 1, e 2, e 3]

end Sys2Proof.Machine
end

