-- ==== Sys2Proof/Laws/State.lean ====
section
/-! SUPPORT. One lemma for each field after each shared update of State, so that no proof unfolds a record update. -/

namespace Sys2Proof.Machine

variable (s : State)

/-! ### memWrite -/

@[simp] theorem State.memWrite_params (a : Nat) (bs : List Byte) :
    (s.memWrite a bs).params = s.params := rfl
@[simp] theorem State.memWrite_pending (a : Nat) (bs : List Byte) :
    (s.memWrite a bs).pending = s.pending := rfl
@[simp] theorem State.memWrite_schedValid (a : Nat) (bs : List Byte) :
    (s.memWrite a bs).schedValid = s.schedValid := rfl
@[simp] theorem State.memWrite_drop (a : Nat) (bs : List Byte) :
    (s.memWrite a bs).drop = s.drop := rfl
@[simp] theorem State.memWrite_err (a : Nat) (bs : List Byte) :
    (s.memWrite a bs).err = s.err := rfl
@[simp] theorem State.memWrite_keylen (a : Nat) (bs : List Byte) :
    (s.memWrite a bs).keylen = s.keylen := rfl
@[simp] theorem State.memWrite_mlen (a : Nat) (bs : List Byte) :
    (s.memWrite a bs).mlen = s.mlen := rfl
@[simp] theorem State.memWrite_result (a : Nat) (bs : List Byte) :
    (s.memWrite a bs).result = s.result := rfl
@[simp] theorem State.memWrite_schedInfo (a : Nat) (bs : List Byte) :
    (s.memWrite a bs).schedInfo = s.schedInfo := rfl
@[simp] theorem State.memWrite_key (a : Nat) (bs : List Byte) :
    (s.memWrite a bs).key = s.key := rfl
@[simp] theorem State.memWrite_iv (a : Nat) (bs : List Byte) :
    (s.memWrite a bs).iv = s.iv := rfl
@[simp] theorem State.memWrite_blk (a : Nat) (bs : List Byte) :
    (s.memWrite a bs).blk = s.blk := rfl
@[simp] theorem State.memWrite_chain (a : Nat) (bs : List Byte) :
    (s.memWrite a bs).chain = s.chain := rfl
@[simp] theorem State.memWrite_sched (a : Nat) (bs : List Byte) :
    (s.memWrite a bs).sched = s.sched := rfl
@[simp] theorem State.memWrite_mbuf (a : Nat) (bs : List Byte) :
    (s.memWrite a bs).mbuf = Memory.writeBytes s.mbuf a bs := rfl
@[simp] theorem State.memWrite_engine (a : Nat) (bs : List Byte) :
    (s.memWrite a bs).engine = s.engine := rfl
@[simp] theorem State.memWrite_host (a : Nat) (bs : List Byte) :
    (s.memWrite a bs).host = s.host := rfl
@[simp] theorem State.memWrite_lats (a : Nat) (bs : List Byte) :
    (s.memWrite a bs).lats = s.lats := rfl
@[simp] theorem State.memWrite_draws (a : Nat) (bs : List Byte) :
    (s.memWrite a bs).draws = s.draws := rfl
@[simp] theorem State.memWrite_epoch (a : Nat) (bs : List Byte) :
    (s.memWrite a bs).epoch = s.epoch := rfl
@[simp] theorem State.memWrite_schedInfoRead (a : Nat) (bs : List Byte) :
    schedInfoRead (s.memWrite a bs) = schedInfoRead s := rfl
@[simp] theorem State.memWrite_schedRead (a : Nat) (bs : List Byte) (i : Fin 60) :
    schedRead (s.memWrite a bs) i = schedRead s i := rfl

/-! ### accept -/

@[simp] theorem State.accept_params (v : Word) :
    (s.accept v).params = s.params := rfl
@[simp] theorem State.accept_pending (v : Word) :
    (s.accept v).pending = some { word := v, wait := s.nextLat v } := rfl
@[simp] theorem State.accept_schedValid (v : Word) :
    (s.accept v).schedValid = s.schedValid := rfl
@[simp] theorem State.accept_drop (v : Word) :
    (s.accept v).drop = s.drop := rfl
@[simp] theorem State.accept_err (v : Word) :
    (s.accept v).err = .ok := rfl
@[simp] theorem State.accept_keylen (v : Word) :
    (s.accept v).keylen = s.keylen := rfl
@[simp] theorem State.accept_mlen (v : Word) :
    (s.accept v).mlen = s.mlen := rfl
@[simp] theorem State.accept_result (v : Word) :
    (s.accept v).result = s.result := rfl
@[simp] theorem State.accept_schedInfo (v : Word) :
    (s.accept v).schedInfo = s.schedInfo := rfl
@[simp] theorem State.accept_key (v : Word) :
    (s.accept v).key = s.key := rfl
@[simp] theorem State.accept_iv (v : Word) :
    (s.accept v).iv = s.iv := rfl
@[simp] theorem State.accept_blk (v : Word) :
    (s.accept v).blk = s.blk := rfl
@[simp] theorem State.accept_chain (v : Word) :
    (s.accept v).chain = s.chain := rfl
@[simp] theorem State.accept_sched (v : Word) :
    (s.accept v).sched = s.sched := rfl
@[simp] theorem State.accept_mbuf (v : Word) :
    (s.accept v).mbuf = s.mbuf := rfl
@[simp] theorem State.accept_engine (v : Word) :
    (s.accept v).engine = s.engine := rfl
@[simp] theorem State.accept_host (v : Word) :
    (s.accept v).host = s.host := rfl
@[simp] theorem State.accept_lats (v : Word) :
    (s.accept v).lats = s.lats.tail := rfl
@[simp] theorem State.accept_draws (v : Word) :
    (s.accept v).draws = s.draws + 1 := rfl
@[simp] theorem State.accept_epoch (v : Word) :
    (s.accept v).epoch = s.epoch := rfl

/-! ### raiseError -/

@[simp] theorem State.raiseError_params (c : ErrCode) :
    (s.raiseError c).params = s.params := rfl
@[simp] theorem State.raiseError_pending (c : ErrCode) :
    (s.raiseError c).pending = none := rfl
@[simp] theorem State.raiseError_schedValid (c : ErrCode) :
    (s.raiseError c).schedValid = s.schedValid := rfl
@[simp] theorem State.raiseError_drop (c : ErrCode) :
    (s.raiseError c).drop = s.drop := rfl
@[simp] theorem State.raiseError_err (c : ErrCode) :
    (s.raiseError c).err = c := rfl
@[simp] theorem State.raiseError_keylen (c : ErrCode) :
    (s.raiseError c).keylen = s.keylen := rfl
@[simp] theorem State.raiseError_mlen (c : ErrCode) :
    (s.raiseError c).mlen = s.mlen := rfl
@[simp] theorem State.raiseError_result (c : ErrCode) :
    (s.raiseError c).result = s.result := rfl
@[simp] theorem State.raiseError_schedInfo (c : ErrCode) :
    (s.raiseError c).schedInfo = s.schedInfo := rfl
@[simp] theorem State.raiseError_key (c : ErrCode) :
    (s.raiseError c).key = s.key := rfl
@[simp] theorem State.raiseError_iv (c : ErrCode) :
    (s.raiseError c).iv = s.iv := rfl
@[simp] theorem State.raiseError_blk (c : ErrCode) :
    (s.raiseError c).blk = s.blk := rfl
@[simp] theorem State.raiseError_chain (c : ErrCode) :
    (s.raiseError c).chain = s.chain := rfl
@[simp] theorem State.raiseError_sched (c : ErrCode) :
    (s.raiseError c).sched = s.sched := rfl
@[simp] theorem State.raiseError_mbuf (c : ErrCode) :
    (s.raiseError c).mbuf = s.mbuf := rfl
@[simp] theorem State.raiseError_engine (c : ErrCode) :
    (s.raiseError c).engine = s.engine := rfl
@[simp] theorem State.raiseError_host (c : ErrCode) :
    (s.raiseError c).host = s.host := rfl
@[simp] theorem State.raiseError_lats (c : ErrCode) :
    (s.raiseError c).lats = s.lats := rfl
@[simp] theorem State.raiseError_draws (c : ErrCode) :
    (s.raiseError c).draws = s.draws := rfl
@[simp] theorem State.raiseError_epoch (c : ErrCode) :
    (s.raiseError c).epoch = s.epoch := rfl

/-! ### complete -/

@[simp] theorem State.complete_params :
    (s.complete).params = s.params := rfl
@[simp] theorem State.complete_pending :
    (s.complete).pending = none := rfl
@[simp] theorem State.complete_schedValid :
    (s.complete).schedValid = s.schedValid := rfl
@[simp] theorem State.complete_drop :
    (s.complete).drop = s.drop := rfl
@[simp] theorem State.complete_err :
    (s.complete).err = .ok := rfl
@[simp] theorem State.complete_keylen :
    (s.complete).keylen = s.keylen := rfl
@[simp] theorem State.complete_mlen :
    (s.complete).mlen = s.mlen := rfl
@[simp] theorem State.complete_result :
    (s.complete).result = s.result := rfl
@[simp] theorem State.complete_schedInfo :
    (s.complete).schedInfo = s.schedInfo := rfl
@[simp] theorem State.complete_key :
    (s.complete).key = s.key := rfl
@[simp] theorem State.complete_iv :
    (s.complete).iv = s.iv := rfl
@[simp] theorem State.complete_blk :
    (s.complete).blk = s.blk := rfl
@[simp] theorem State.complete_chain :
    (s.complete).chain = s.chain := rfl
@[simp] theorem State.complete_sched :
    (s.complete).sched = s.sched := rfl
@[simp] theorem State.complete_mbuf :
    (s.complete).mbuf = s.mbuf := rfl
@[simp] theorem State.complete_engine :
    (s.complete).engine = s.engine := rfl
@[simp] theorem State.complete_host :
    (s.complete).host = s.host := rfl
@[simp] theorem State.complete_lats :
    (s.complete).lats = s.lats := rfl
@[simp] theorem State.complete_draws :
    (s.complete).draws = s.draws := rfl
@[simp] theorem State.complete_epoch :
    (s.complete).epoch = s.epoch := rfl

/-! ### dropWrite -/

@[simp] theorem State.dropWrite_params :
    (s.dropWrite).params = s.params := rfl
@[simp] theorem State.dropWrite_pending :
    (s.dropWrite).pending = s.pending := rfl
@[simp] theorem State.dropWrite_schedValid :
    (s.dropWrite).schedValid = s.schedValid := rfl
@[simp] theorem State.dropWrite_drop :
    (s.dropWrite).drop = true := rfl
@[simp] theorem State.dropWrite_err :
    (s.dropWrite).err = s.err := rfl
@[simp] theorem State.dropWrite_keylen :
    (s.dropWrite).keylen = s.keylen := rfl
@[simp] theorem State.dropWrite_mlen :
    (s.dropWrite).mlen = s.mlen := rfl
@[simp] theorem State.dropWrite_result :
    (s.dropWrite).result = s.result := rfl
@[simp] theorem State.dropWrite_schedInfo :
    (s.dropWrite).schedInfo = s.schedInfo := rfl
@[simp] theorem State.dropWrite_key :
    (s.dropWrite).key = s.key := rfl
@[simp] theorem State.dropWrite_iv :
    (s.dropWrite).iv = s.iv := rfl
@[simp] theorem State.dropWrite_blk :
    (s.dropWrite).blk = s.blk := rfl
@[simp] theorem State.dropWrite_chain :
    (s.dropWrite).chain = s.chain := rfl
@[simp] theorem State.dropWrite_sched :
    (s.dropWrite).sched = s.sched := rfl
@[simp] theorem State.dropWrite_mbuf :
    (s.dropWrite).mbuf = s.mbuf := rfl
@[simp] theorem State.dropWrite_engine :
    (s.dropWrite).engine = s.engine := rfl
@[simp] theorem State.dropWrite_host :
    (s.dropWrite).host = s.host := rfl
@[simp] theorem State.dropWrite_lats :
    (s.dropWrite).lats = s.lats := rfl
@[simp] theorem State.dropWrite_draws :
    (s.dropWrite).draws = s.draws := rfl
@[simp] theorem State.dropWrite_epoch :
    (s.dropWrite).epoch = s.epoch := rfl

/-! ### writeStatus -/

@[simp] theorem State.writeStatus_params (v : Word) :
    (s.writeStatus v).params = s.params := rfl
@[simp] theorem State.writeStatus_pending (v : Word) :
    (s.writeStatus v).pending = s.pending := rfl
@[simp] theorem State.writeStatus_schedValid (v : Word) :
    (s.writeStatus v).schedValid = s.schedValid := rfl
@[simp] theorem State.writeStatus_drop (v : Word) :
    (s.writeStatus v).drop = (s.drop && !clearsDrop v) := rfl
@[simp] theorem State.writeStatus_err (v : Word) :
    (s.writeStatus v).err = s.err := rfl
@[simp] theorem State.writeStatus_keylen (v : Word) :
    (s.writeStatus v).keylen = s.keylen := rfl
@[simp] theorem State.writeStatus_mlen (v : Word) :
    (s.writeStatus v).mlen = s.mlen := rfl
@[simp] theorem State.writeStatus_result (v : Word) :
    (s.writeStatus v).result = s.result := rfl
@[simp] theorem State.writeStatus_schedInfo (v : Word) :
    (s.writeStatus v).schedInfo = s.schedInfo := rfl
@[simp] theorem State.writeStatus_key (v : Word) :
    (s.writeStatus v).key = s.key := rfl
@[simp] theorem State.writeStatus_iv (v : Word) :
    (s.writeStatus v).iv = s.iv := rfl
@[simp] theorem State.writeStatus_blk (v : Word) :
    (s.writeStatus v).blk = s.blk := rfl
@[simp] theorem State.writeStatus_chain (v : Word) :
    (s.writeStatus v).chain = s.chain := rfl
@[simp] theorem State.writeStatus_sched (v : Word) :
    (s.writeStatus v).sched = s.sched := rfl
@[simp] theorem State.writeStatus_mbuf (v : Word) :
    (s.writeStatus v).mbuf = s.mbuf := rfl
@[simp] theorem State.writeStatus_engine (v : Word) :
    (s.writeStatus v).engine = s.engine := rfl
@[simp] theorem State.writeStatus_host (v : Word) :
    (s.writeStatus v).host = s.host := rfl
@[simp] theorem State.writeStatus_lats (v : Word) :
    (s.writeStatus v).lats = s.lats := rfl
@[simp] theorem State.writeStatus_draws (v : Word) :
    (s.writeStatus v).draws = s.draws := rfl
@[simp] theorem State.writeStatus_epoch (v : Word) :
    (s.writeStatus v).epoch = s.epoch := rfl

/-! ### loadSchedule -/

@[simp] theorem State.loadSchedule_params (ks : KeySize) (w : List Word) :
    (s.loadSchedule ks w).params = s.params := rfl
@[simp] theorem State.loadSchedule_pending (ks : KeySize) (w : List Word) :
    (s.loadSchedule ks w).pending = s.pending := rfl
@[simp] theorem State.loadSchedule_schedValid (ks : KeySize) (w : List Word) :
    (s.loadSchedule ks w).schedValid = true := rfl
@[simp] theorem State.loadSchedule_drop (ks : KeySize) (w : List Word) :
    (s.loadSchedule ks w).drop = s.drop := rfl
@[simp] theorem State.loadSchedule_err (ks : KeySize) (w : List Word) :
    (s.loadSchedule ks w).err = s.err := rfl
@[simp] theorem State.loadSchedule_keylen (ks : KeySize) (w : List Word) :
    (s.loadSchedule ks w).keylen = s.keylen := rfl
@[simp] theorem State.loadSchedule_mlen (ks : KeySize) (w : List Word) :
    (s.loadSchedule ks w).mlen = s.mlen := rfl
@[simp] theorem State.loadSchedule_result (ks : KeySize) (w : List Word) :
    (s.loadSchedule ks w).result = s.result := rfl
@[simp] theorem State.loadSchedule_schedInfo (ks : KeySize) (w : List Word) :
    (s.loadSchedule ks w).schedInfo = schedInfoWord (keyNk ks) (keyNr ks) (keyNwords ks) := rfl
@[simp] theorem State.loadSchedule_key (ks : KeySize) (w : List Word) :
    (s.loadSchedule ks w).key = s.key := rfl
@[simp] theorem State.loadSchedule_iv (ks : KeySize) (w : List Word) :
    (s.loadSchedule ks w).iv = s.iv := rfl
@[simp] theorem State.loadSchedule_blk (ks : KeySize) (w : List Word) :
    (s.loadSchedule ks w).blk = s.blk := rfl
@[simp] theorem State.loadSchedule_chain (ks : KeySize) (w : List Word) :
    (s.loadSchedule ks w).chain = s.chain := rfl
@[simp] theorem State.loadSchedule_sched (ks : KeySize) (w : List Word) :
    (s.loadSchedule ks w).sched = storeSched s.sched w := rfl
@[simp] theorem State.loadSchedule_mbuf (ks : KeySize) (w : List Word) :
    (s.loadSchedule ks w).mbuf = s.mbuf := rfl
@[simp] theorem State.loadSchedule_engine (ks : KeySize) (w : List Word) :
    (s.loadSchedule ks w).engine = s.engine := rfl
@[simp] theorem State.loadSchedule_host (ks : KeySize) (w : List Word) :
    (s.loadSchedule ks w).host = s.host := rfl
@[simp] theorem State.loadSchedule_lats (ks : KeySize) (w : List Word) :
    (s.loadSchedule ks w).lats = s.lats := rfl
@[simp] theorem State.loadSchedule_draws (ks : KeySize) (w : List Word) :
    (s.loadSchedule ks w).draws = s.draws := rfl
@[simp] theorem State.loadSchedule_epoch (ks : KeySize) (w : List Word) :
    (s.loadSchedule ks w).epoch = s.epoch := rfl

/-! ### resetBlock -/

@[simp] theorem State.resetBlock_params :
    (s.resetBlock).params = s.params := rfl
@[simp] theorem State.resetBlock_pending :
    (s.resetBlock).pending = State.reset.pending := rfl
@[simp] theorem State.resetBlock_schedValid :
    (s.resetBlock).schedValid = State.reset.schedValid := rfl
@[simp] theorem State.resetBlock_drop :
    (s.resetBlock).drop = State.reset.drop := rfl
@[simp] theorem State.resetBlock_err :
    (s.resetBlock).err = State.reset.err := rfl
@[simp] theorem State.resetBlock_keylen :
    (s.resetBlock).keylen = State.reset.keylen := rfl
@[simp] theorem State.resetBlock_mlen :
    (s.resetBlock).mlen = State.reset.mlen := rfl
@[simp] theorem State.resetBlock_result :
    (s.resetBlock).result = State.reset.result := rfl
@[simp] theorem State.resetBlock_schedInfo :
    (s.resetBlock).schedInfo = State.reset.schedInfo := rfl
@[simp] theorem State.resetBlock_key :
    (s.resetBlock).key = State.reset.key := rfl
@[simp] theorem State.resetBlock_iv :
    (s.resetBlock).iv = State.reset.iv := rfl
@[simp] theorem State.resetBlock_blk :
    (s.resetBlock).blk = State.reset.blk := rfl
@[simp] theorem State.resetBlock_chain :
    (s.resetBlock).chain = State.reset.chain := rfl
@[simp] theorem State.resetBlock_sched :
    (s.resetBlock).sched = State.reset.sched := rfl
@[simp] theorem State.resetBlock_mbuf :
    (s.resetBlock).mbuf = State.reset.mbuf := rfl
@[simp] theorem State.resetBlock_engine :
    (s.resetBlock).engine = State.reset.engine := rfl
@[simp] theorem State.resetBlock_host :
    (s.resetBlock).host = s.host := rfl
@[simp] theorem State.resetBlock_lats :
    (s.resetBlock).lats = s.lats := rfl
@[simp] theorem State.resetBlock_draws :
    (s.resetBlock).draws = s.draws := rfl
@[simp] theorem State.resetBlock_epoch :
    (s.resetBlock).epoch = s.epoch + 1 := rfl

/-! ### runCipher -/

@[simp] theorem State.runCipher_params (b : Block) (w : List Word) (nr : Nat) :
    (s.runCipher b w nr).params = s.params := rfl
@[simp] theorem State.runCipher_pending (b : Block) (w : List Word) (nr : Nat) :
    (s.runCipher b w nr).pending = s.pending := rfl
@[simp] theorem State.runCipher_schedValid (b : Block) (w : List Word) (nr : Nat) :
    (s.runCipher b w nr).schedValid = s.schedValid := rfl
@[simp] theorem State.runCipher_drop (b : Block) (w : List Word) (nr : Nat) :
    (s.runCipher b w nr).drop = s.drop := rfl
@[simp] theorem State.runCipher_err (b : Block) (w : List Word) (nr : Nat) :
    (s.runCipher b w nr).err = s.err := rfl
@[simp] theorem State.runCipher_keylen (b : Block) (w : List Word) (nr : Nat) :
    (s.runCipher b w nr).keylen = s.keylen := rfl
@[simp] theorem State.runCipher_mlen (b : Block) (w : List Word) (nr : Nat) :
    (s.runCipher b w nr).mlen = s.mlen := rfl
@[simp] theorem State.runCipher_result (b : Block) (w : List Word) (nr : Nat) :
    (s.runCipher b w nr).result = s.result := rfl
@[simp] theorem State.runCipher_schedInfo (b : Block) (w : List Word) (nr : Nat) :
    (s.runCipher b w nr).schedInfo = s.schedInfo := rfl
@[simp] theorem State.runCipher_key (b : Block) (w : List Word) (nr : Nat) :
    (s.runCipher b w nr).key = s.key := rfl
@[simp] theorem State.runCipher_iv (b : Block) (w : List Word) (nr : Nat) :
    (s.runCipher b w nr).iv = s.iv := rfl
@[simp] theorem State.runCipher_blk (b : Block) (w : List Word) (nr : Nat) :
    (s.runCipher b w nr).blk = s.blk := rfl
@[simp] theorem State.runCipher_chain (b : Block) (w : List Word) (nr : Nat) :
    (s.runCipher b w nr).chain = s.chain := rfl
@[simp] theorem State.runCipher_sched (b : Block) (w : List Word) (nr : Nat) :
    (s.runCipher b w nr).sched = s.sched := rfl
@[simp] theorem State.runCipher_mbuf (b : Block) (w : List Word) (nr : Nat) :
    (s.runCipher b w nr).mbuf = s.mbuf := rfl
@[simp] theorem State.runCipher_engine (b : Block) (w : List Word) (nr : Nat) :
    (s.runCipher b w nr).engine = { s.engine with round := cipher b w nr, rnd := nr } := rfl
@[simp] theorem State.runCipher_host (b : Block) (w : List Word) (nr : Nat) :
    (s.runCipher b w nr).host = s.host := rfl
@[simp] theorem State.runCipher_lats (b : Block) (w : List Word) (nr : Nat) :
    (s.runCipher b w nr).lats = s.lats := rfl
@[simp] theorem State.runCipher_draws (b : Block) (w : List Word) (nr : Nat) :
    (s.runCipher b w nr).draws = s.draws := rfl
@[simp] theorem State.runCipher_epoch (b : Block) (w : List Word) (nr : Nat) :
    (s.runCipher b w nr).epoch = s.epoch := rfl

/-! ### runInvCipher -/

@[simp] theorem State.runInvCipher_params (b : Block) (w : List Word) (nr : Nat) :
    (s.runInvCipher b w nr).params = s.params := rfl
@[simp] theorem State.runInvCipher_pending (b : Block) (w : List Word) (nr : Nat) :
    (s.runInvCipher b w nr).pending = s.pending := rfl
@[simp] theorem State.runInvCipher_schedValid (b : Block) (w : List Word) (nr : Nat) :
    (s.runInvCipher b w nr).schedValid = s.schedValid := rfl
@[simp] theorem State.runInvCipher_drop (b : Block) (w : List Word) (nr : Nat) :
    (s.runInvCipher b w nr).drop = s.drop := rfl
@[simp] theorem State.runInvCipher_err (b : Block) (w : List Word) (nr : Nat) :
    (s.runInvCipher b w nr).err = s.err := rfl
@[simp] theorem State.runInvCipher_keylen (b : Block) (w : List Word) (nr : Nat) :
    (s.runInvCipher b w nr).keylen = s.keylen := rfl
@[simp] theorem State.runInvCipher_mlen (b : Block) (w : List Word) (nr : Nat) :
    (s.runInvCipher b w nr).mlen = s.mlen := rfl
@[simp] theorem State.runInvCipher_result (b : Block) (w : List Word) (nr : Nat) :
    (s.runInvCipher b w nr).result = s.result := rfl
@[simp] theorem State.runInvCipher_schedInfo (b : Block) (w : List Word) (nr : Nat) :
    (s.runInvCipher b w nr).schedInfo = s.schedInfo := rfl
@[simp] theorem State.runInvCipher_key (b : Block) (w : List Word) (nr : Nat) :
    (s.runInvCipher b w nr).key = s.key := rfl
@[simp] theorem State.runInvCipher_iv (b : Block) (w : List Word) (nr : Nat) :
    (s.runInvCipher b w nr).iv = s.iv := rfl
@[simp] theorem State.runInvCipher_blk (b : Block) (w : List Word) (nr : Nat) :
    (s.runInvCipher b w nr).blk = s.blk := rfl
@[simp] theorem State.runInvCipher_chain (b : Block) (w : List Word) (nr : Nat) :
    (s.runInvCipher b w nr).chain = s.chain := rfl
@[simp] theorem State.runInvCipher_sched (b : Block) (w : List Word) (nr : Nat) :
    (s.runInvCipher b w nr).sched = s.sched := rfl
@[simp] theorem State.runInvCipher_mbuf (b : Block) (w : List Word) (nr : Nat) :
    (s.runInvCipher b w nr).mbuf = s.mbuf := rfl
@[simp] theorem State.runInvCipher_engine (b : Block) (w : List Word) (nr : Nat) :
    (s.runInvCipher b w nr).engine = { s.engine with round := invCipher b w nr, rnd := 0 } := rfl
@[simp] theorem State.runInvCipher_host (b : Block) (w : List Word) (nr : Nat) :
    (s.runInvCipher b w nr).host = s.host := rfl
@[simp] theorem State.runInvCipher_lats (b : Block) (w : List Word) (nr : Nat) :
    (s.runInvCipher b w nr).lats = s.lats := rfl
@[simp] theorem State.runInvCipher_draws (b : Block) (w : List Word) (nr : Nat) :
    (s.runInvCipher b w nr).draws = s.draws := rfl
@[simp] theorem State.runInvCipher_epoch (b : Block) (w : List Word) (nr : Nat) :
    (s.runInvCipher b w nr).epoch = s.epoch := rfl

/-! ### cbcStart -/

@[simp] theorem State.cbcStart_params (ks : KeySize) (w : List Word) :
    (s.cbcStart ks w).params = s.params := rfl
@[simp] theorem State.cbcStart_pending (ks : KeySize) (w : List Word) :
    (s.cbcStart ks w).pending = s.pending := rfl
@[simp] theorem State.cbcStart_schedValid (ks : KeySize) (w : List Word) :
    (s.cbcStart ks w).schedValid = true := rfl
@[simp] theorem State.cbcStart_drop (ks : KeySize) (w : List Word) :
    (s.cbcStart ks w).drop = s.drop := rfl
@[simp] theorem State.cbcStart_err (ks : KeySize) (w : List Word) :
    (s.cbcStart ks w).err = s.err := rfl
@[simp] theorem State.cbcStart_keylen (ks : KeySize) (w : List Word) :
    (s.cbcStart ks w).keylen = s.keylen := rfl
@[simp] theorem State.cbcStart_mlen (ks : KeySize) (w : List Word) :
    (s.cbcStart ks w).mlen = s.mlen := rfl
@[simp] theorem State.cbcStart_result (ks : KeySize) (w : List Word) :
    (s.cbcStart ks w).result = s.result := rfl
@[simp] theorem State.cbcStart_schedInfo (ks : KeySize) (w : List Word) :
    (s.cbcStart ks w).schedInfo = schedInfoWord (keyNk ks) (keyNr ks) (keyNwords ks) := rfl
@[simp] theorem State.cbcStart_key (ks : KeySize) (w : List Word) :
    (s.cbcStart ks w).key = s.key := rfl
@[simp] theorem State.cbcStart_iv (ks : KeySize) (w : List Word) :
    (s.cbcStart ks w).iv = s.iv := rfl
@[simp] theorem State.cbcStart_blk (ks : KeySize) (w : List Word) :
    (s.cbcStart ks w).blk = s.blk := rfl
@[simp] theorem State.cbcStart_chain (ks : KeySize) (w : List Word) :
    (s.cbcStart ks w).chain = s.iv := rfl
@[simp] theorem State.cbcStart_sched (ks : KeySize) (w : List Word) :
    (s.cbcStart ks w).sched = storeSched s.sched w := rfl
@[simp] theorem State.cbcStart_mbuf (ks : KeySize) (w : List Word) :
    (s.cbcStart ks w).mbuf = s.mbuf := rfl
@[simp] theorem State.cbcStart_engine (ks : KeySize) (w : List Word) :
    (s.cbcStart ks w).engine = { s.engine with blockIdx := 0 } := rfl
@[simp] theorem State.cbcStart_host (ks : KeySize) (w : List Word) :
    (s.cbcStart ks w).host = s.host := rfl
@[simp] theorem State.cbcStart_lats (ks : KeySize) (w : List Word) :
    (s.cbcStart ks w).lats = s.lats := rfl
@[simp] theorem State.cbcStart_draws (ks : KeySize) (w : List Word) :
    (s.cbcStart ks w).draws = s.draws := rfl
@[simp] theorem State.cbcStart_epoch (ks : KeySize) (w : List Word) :
    (s.cbcStart ks w).epoch = s.epoch := rfl

/-! ### nextBlock -/

@[simp] theorem State.nextBlock_params :
    (s.nextBlock).params = s.params := rfl
@[simp] theorem State.nextBlock_pending :
    (s.nextBlock).pending = s.pending := rfl
@[simp] theorem State.nextBlock_schedValid :
    (s.nextBlock).schedValid = s.schedValid := rfl
@[simp] theorem State.nextBlock_drop :
    (s.nextBlock).drop = s.drop := rfl
@[simp] theorem State.nextBlock_err :
    (s.nextBlock).err = s.err := rfl
@[simp] theorem State.nextBlock_keylen :
    (s.nextBlock).keylen = s.keylen := rfl
@[simp] theorem State.nextBlock_mlen :
    (s.nextBlock).mlen = s.mlen := rfl
@[simp] theorem State.nextBlock_result :
    (s.nextBlock).result = s.result := rfl
@[simp] theorem State.nextBlock_schedInfo :
    (s.nextBlock).schedInfo = s.schedInfo := rfl
@[simp] theorem State.nextBlock_key :
    (s.nextBlock).key = s.key := rfl
@[simp] theorem State.nextBlock_iv :
    (s.nextBlock).iv = s.iv := rfl
@[simp] theorem State.nextBlock_blk :
    (s.nextBlock).blk = s.blk := rfl
@[simp] theorem State.nextBlock_chain :
    (s.nextBlock).chain = s.chain := rfl
@[simp] theorem State.nextBlock_sched :
    (s.nextBlock).sched = s.sched := rfl
@[simp] theorem State.nextBlock_mbuf :
    (s.nextBlock).mbuf = s.mbuf := rfl
@[simp] theorem State.nextBlock_engine :
    (s.nextBlock).engine = { s.engine with blockIdx := s.engine.blockIdx + 1 } := rfl
@[simp] theorem State.nextBlock_host :
    (s.nextBlock).host = s.host := rfl
@[simp] theorem State.nextBlock_lats :
    (s.nextBlock).lats = s.lats := rfl
@[simp] theorem State.nextBlock_draws :
    (s.nextBlock).draws = s.draws := rfl
@[simp] theorem State.nextBlock_epoch :
    (s.nextBlock).epoch = s.epoch := rfl

/-! ### capturePrev -/

@[simp] theorem State.capturePrev_params (c : Block) :
    (s.capturePrev c).params = s.params := rfl
@[simp] theorem State.capturePrev_pending (c : Block) :
    (s.capturePrev c).pending = s.pending := rfl
@[simp] theorem State.capturePrev_schedValid (c : Block) :
    (s.capturePrev c).schedValid = s.schedValid := rfl
@[simp] theorem State.capturePrev_drop (c : Block) :
    (s.capturePrev c).drop = s.drop := rfl
@[simp] theorem State.capturePrev_err (c : Block) :
    (s.capturePrev c).err = s.err := rfl
@[simp] theorem State.capturePrev_keylen (c : Block) :
    (s.capturePrev c).keylen = s.keylen := rfl
@[simp] theorem State.capturePrev_mlen (c : Block) :
    (s.capturePrev c).mlen = s.mlen := rfl
@[simp] theorem State.capturePrev_result (c : Block) :
    (s.capturePrev c).result = s.result := rfl
@[simp] theorem State.capturePrev_schedInfo (c : Block) :
    (s.capturePrev c).schedInfo = s.schedInfo := rfl
@[simp] theorem State.capturePrev_key (c : Block) :
    (s.capturePrev c).key = s.key := rfl
@[simp] theorem State.capturePrev_iv (c : Block) :
    (s.capturePrev c).iv = s.iv := rfl
@[simp] theorem State.capturePrev_blk (c : Block) :
    (s.capturePrev c).blk = s.blk := rfl
@[simp] theorem State.capturePrev_chain (c : Block) :
    (s.capturePrev c).chain = s.chain := rfl
@[simp] theorem State.capturePrev_sched (c : Block) :
    (s.capturePrev c).sched = s.sched := rfl
@[simp] theorem State.capturePrev_mbuf (c : Block) :
    (s.capturePrev c).mbuf = s.mbuf := rfl
@[simp] theorem State.capturePrev_engine (c : Block) :
    (s.capturePrev c).engine = { s.engine with prev := c } := rfl
@[simp] theorem State.capturePrev_host (c : Block) :
    (s.capturePrev c).host = s.host := rfl
@[simp] theorem State.capturePrev_lats (c : Block) :
    (s.capturePrev c).lats = s.lats := rfl
@[simp] theorem State.capturePrev_draws (c : Block) :
    (s.capturePrev c).draws = s.draws := rfl
@[simp] theorem State.capturePrev_epoch (c : Block) :
    (s.capturePrev c).epoch = s.epoch := rfl

/-! ### setResult -/

@[simp] theorem State.setResult_params (k : Nat) :
    (s.setResult k).params = s.params := rfl
@[simp] theorem State.setResult_pending (k : Nat) :
    (s.setResult k).pending = s.pending := rfl
@[simp] theorem State.setResult_schedValid (k : Nat) :
    (s.setResult k).schedValid = s.schedValid := rfl
@[simp] theorem State.setResult_drop (k : Nat) :
    (s.setResult k).drop = s.drop := rfl
@[simp] theorem State.setResult_err (k : Nat) :
    (s.setResult k).err = s.err := rfl
@[simp] theorem State.setResult_keylen (k : Nat) :
    (s.setResult k).keylen = s.keylen := rfl
@[simp] theorem State.setResult_mlen (k : Nat) :
    (s.setResult k).mlen = s.mlen := rfl
@[simp] theorem State.setResult_result (k : Nat) :
    (s.setResult k).result = BitVec.ofNat 32 k := rfl
@[simp] theorem State.setResult_schedInfo (k : Nat) :
    (s.setResult k).schedInfo = s.schedInfo := rfl
@[simp] theorem State.setResult_key (k : Nat) :
    (s.setResult k).key = s.key := rfl
@[simp] theorem State.setResult_iv (k : Nat) :
    (s.setResult k).iv = s.iv := rfl
@[simp] theorem State.setResult_blk (k : Nat) :
    (s.setResult k).blk = s.blk := rfl
@[simp] theorem State.setResult_chain (k : Nat) :
    (s.setResult k).chain = s.chain := rfl
@[simp] theorem State.setResult_sched (k : Nat) :
    (s.setResult k).sched = s.sched := rfl
@[simp] theorem State.setResult_mbuf (k : Nat) :
    (s.setResult k).mbuf = s.mbuf := rfl
@[simp] theorem State.setResult_engine (k : Nat) :
    (s.setResult k).engine = s.engine := rfl
@[simp] theorem State.setResult_host (k : Nat) :
    (s.setResult k).host = s.host := rfl
@[simp] theorem State.setResult_lats (k : Nat) :
    (s.setResult k).lats = s.lats := rfl
@[simp] theorem State.setResult_draws (k : Nat) :
    (s.setResult k).draws = s.draws := rfl
@[simp] theorem State.setResult_epoch (k : Nat) :
    (s.setResult k).epoch = s.epoch := rfl

/-! ### setMlen -/

@[simp] theorem State.setMlen_params (n : Nat) :
    (s.setMlen n).params = s.params := rfl
@[simp] theorem State.setMlen_pending (n : Nat) :
    (s.setMlen n).pending = s.pending := rfl
@[simp] theorem State.setMlen_schedValid (n : Nat) :
    (s.setMlen n).schedValid = s.schedValid := rfl
@[simp] theorem State.setMlen_drop (n : Nat) :
    (s.setMlen n).drop = s.drop := rfl
@[simp] theorem State.setMlen_err (n : Nat) :
    (s.setMlen n).err = s.err := rfl
@[simp] theorem State.setMlen_keylen (n : Nat) :
    (s.setMlen n).keylen = s.keylen := rfl
@[simp] theorem State.setMlen_mlen (n : Nat) :
    (s.setMlen n).mlen = BitVec.ofNat 32 n := rfl
@[simp] theorem State.setMlen_result (n : Nat) :
    (s.setMlen n).result = s.result := rfl
@[simp] theorem State.setMlen_schedInfo (n : Nat) :
    (s.setMlen n).schedInfo = s.schedInfo := rfl
@[simp] theorem State.setMlen_key (n : Nat) :
    (s.setMlen n).key = s.key := rfl
@[simp] theorem State.setMlen_iv (n : Nat) :
    (s.setMlen n).iv = s.iv := rfl
@[simp] theorem State.setMlen_blk (n : Nat) :
    (s.setMlen n).blk = s.blk := rfl
@[simp] theorem State.setMlen_chain (n : Nat) :
    (s.setMlen n).chain = s.chain := rfl
@[simp] theorem State.setMlen_sched (n : Nat) :
    (s.setMlen n).sched = s.sched := rfl
@[simp] theorem State.setMlen_mbuf (n : Nat) :
    (s.setMlen n).mbuf = s.mbuf := rfl
@[simp] theorem State.setMlen_engine (n : Nat) :
    (s.setMlen n).engine = s.engine := rfl
@[simp] theorem State.setMlen_host (n : Nat) :
    (s.setMlen n).host = s.host := rfl
@[simp] theorem State.setMlen_lats (n : Nat) :
    (s.setMlen n).lats = s.lats := rfl
@[simp] theorem State.setMlen_draws (n : Nat) :
    (s.setMlen n).draws = s.draws := rfl
@[simp] theorem State.setMlen_epoch (n : Nat) :
    (s.setMlen n).epoch = s.epoch := rfl

/-! ### advance -/

@[simp] theorem State.advance_params :
    (s.advance).params = s.params := rfl
@[simp] theorem State.advance_pending :
    (s.advance).pending = s.pending := rfl
@[simp] theorem State.advance_schedValid :
    (s.advance).schedValid = s.schedValid := rfl
@[simp] theorem State.advance_drop :
    (s.advance).drop = s.drop := rfl
@[simp] theorem State.advance_err :
    (s.advance).err = s.err := rfl
@[simp] theorem State.advance_keylen :
    (s.advance).keylen = s.keylen := rfl
@[simp] theorem State.advance_mlen :
    (s.advance).mlen = s.mlen := rfl
@[simp] theorem State.advance_result :
    (s.advance).result = s.result := rfl
@[simp] theorem State.advance_schedInfo :
    (s.advance).schedInfo = s.schedInfo := rfl
@[simp] theorem State.advance_key :
    (s.advance).key = s.key := rfl
@[simp] theorem State.advance_iv :
    (s.advance).iv = s.iv := rfl
@[simp] theorem State.advance_blk :
    (s.advance).blk = s.blk := rfl
@[simp] theorem State.advance_chain :
    (s.advance).chain = s.chain := rfl
@[simp] theorem State.advance_sched :
    (s.advance).sched = s.sched := rfl
@[simp] theorem State.advance_mbuf :
    (s.advance).mbuf = s.mbuf := rfl
@[simp] theorem State.advance_engine :
    (s.advance).engine = s.engine := rfl
@[simp] theorem State.advance_host :
    (s.advance).host = { s.host with pos := s.host.pos + 1 } := rfl
@[simp] theorem State.advance_lats :
    (s.advance).lats = s.lats := rfl
@[simp] theorem State.advance_draws :
    (s.advance).draws = s.draws := rfl
@[simp] theorem State.advance_epoch :
    (s.advance).epoch = s.epoch := rfl

/-! ### goto -/

@[simp] theorem State.goto_params (l : Nat) :
    (s.goto l).params = s.params := rfl
@[simp] theorem State.goto_pending (l : Nat) :
    (s.goto l).pending = s.pending := rfl
@[simp] theorem State.goto_schedValid (l : Nat) :
    (s.goto l).schedValid = s.schedValid := rfl
@[simp] theorem State.goto_drop (l : Nat) :
    (s.goto l).drop = s.drop := rfl
@[simp] theorem State.goto_err (l : Nat) :
    (s.goto l).err = s.err := rfl
@[simp] theorem State.goto_keylen (l : Nat) :
    (s.goto l).keylen = s.keylen := rfl
@[simp] theorem State.goto_mlen (l : Nat) :
    (s.goto l).mlen = s.mlen := rfl
@[simp] theorem State.goto_result (l : Nat) :
    (s.goto l).result = s.result := rfl
@[simp] theorem State.goto_schedInfo (l : Nat) :
    (s.goto l).schedInfo = s.schedInfo := rfl
@[simp] theorem State.goto_key (l : Nat) :
    (s.goto l).key = s.key := rfl
@[simp] theorem State.goto_iv (l : Nat) :
    (s.goto l).iv = s.iv := rfl
@[simp] theorem State.goto_blk (l : Nat) :
    (s.goto l).blk = s.blk := rfl
@[simp] theorem State.goto_chain (l : Nat) :
    (s.goto l).chain = s.chain := rfl
@[simp] theorem State.goto_sched (l : Nat) :
    (s.goto l).sched = s.sched := rfl
@[simp] theorem State.goto_mbuf (l : Nat) :
    (s.goto l).mbuf = s.mbuf := rfl
@[simp] theorem State.goto_engine (l : Nat) :
    (s.goto l).engine = s.engine := rfl
@[simp] theorem State.goto_host (l : Nat) :
    (s.goto l).host = { s.host with pos := l } := rfl
@[simp] theorem State.goto_lats (l : Nat) :
    (s.goto l).lats = s.lats := rfl
@[simp] theorem State.goto_draws (l : Nat) :
    (s.goto l).draws = s.draws := rfl
@[simp] theorem State.goto_epoch (l : Nat) :
    (s.goto l).epoch = s.epoch := rfl

/-! ### keepRead -/

@[simp] theorem State.keepRead_params (woff : BitVec 19) (v : Word) :
    (s.keepRead woff v).params = s.params := rfl
@[simp] theorem State.keepRead_pending (woff : BitVec 19) (v : Word) :
    (s.keepRead woff v).pending = s.pending := rfl
@[simp] theorem State.keepRead_schedValid (woff : BitVec 19) (v : Word) :
    (s.keepRead woff v).schedValid = s.schedValid := rfl
@[simp] theorem State.keepRead_drop (woff : BitVec 19) (v : Word) :
    (s.keepRead woff v).drop = s.drop := rfl
@[simp] theorem State.keepRead_err (woff : BitVec 19) (v : Word) :
    (s.keepRead woff v).err = s.err := rfl
@[simp] theorem State.keepRead_keylen (woff : BitVec 19) (v : Word) :
    (s.keepRead woff v).keylen = s.keylen := rfl
@[simp] theorem State.keepRead_mlen (woff : BitVec 19) (v : Word) :
    (s.keepRead woff v).mlen = s.mlen := rfl
@[simp] theorem State.keepRead_result (woff : BitVec 19) (v : Word) :
    (s.keepRead woff v).result = s.result := rfl
@[simp] theorem State.keepRead_schedInfo (woff : BitVec 19) (v : Word) :
    (s.keepRead woff v).schedInfo = s.schedInfo := rfl
@[simp] theorem State.keepRead_key (woff : BitVec 19) (v : Word) :
    (s.keepRead woff v).key = s.key := rfl
@[simp] theorem State.keepRead_iv (woff : BitVec 19) (v : Word) :
    (s.keepRead woff v).iv = s.iv := rfl
@[simp] theorem State.keepRead_blk (woff : BitVec 19) (v : Word) :
    (s.keepRead woff v).blk = s.blk := rfl
@[simp] theorem State.keepRead_chain (woff : BitVec 19) (v : Word) :
    (s.keepRead woff v).chain = s.chain := rfl
@[simp] theorem State.keepRead_sched (woff : BitVec 19) (v : Word) :
    (s.keepRead woff v).sched = s.sched := rfl
@[simp] theorem State.keepRead_mbuf (woff : BitVec 19) (v : Word) :
    (s.keepRead woff v).mbuf = s.mbuf := rfl
@[simp] theorem State.keepRead_engine (woff : BitVec 19) (v : Word) :
    (s.keepRead woff v).engine = s.engine := rfl
@[simp] theorem State.keepRead_host (woff : BitVec 19) (v : Word) :
    (s.keepRead woff v).host = { s.host with rdata := v, lastStatus := if woff = statusWoff then v else s.host.lastStatus } := rfl
@[simp] theorem State.keepRead_lats (woff : BitVec 19) (v : Word) :
    (s.keepRead woff v).lats = s.lats := rfl
@[simp] theorem State.keepRead_draws (woff : BitVec 19) (v : Word) :
    (s.keepRead woff v).draws = s.draws := rfl
@[simp] theorem State.keepRead_epoch (woff : BitVec 19) (v : Word) :
    (s.keepRead woff v).epoch = s.epoch := rfl

/-! ### assertRead -/

@[simp] theorem State.assertRead_params (v : Word) :
    (s.assertRead v).params = s.params := rfl
@[simp] theorem State.assertRead_pending (v : Word) :
    (s.assertRead v).pending = s.pending := rfl
@[simp] theorem State.assertRead_schedValid (v : Word) :
    (s.assertRead v).schedValid = s.schedValid := rfl
@[simp] theorem State.assertRead_drop (v : Word) :
    (s.assertRead v).drop = s.drop := rfl
@[simp] theorem State.assertRead_err (v : Word) :
    (s.assertRead v).err = s.err := rfl
@[simp] theorem State.assertRead_keylen (v : Word) :
    (s.assertRead v).keylen = s.keylen := rfl
@[simp] theorem State.assertRead_mlen (v : Word) :
    (s.assertRead v).mlen = s.mlen := rfl
@[simp] theorem State.assertRead_result (v : Word) :
    (s.assertRead v).result = s.result := rfl
@[simp] theorem State.assertRead_schedInfo (v : Word) :
    (s.assertRead v).schedInfo = s.schedInfo := rfl
@[simp] theorem State.assertRead_key (v : Word) :
    (s.assertRead v).key = s.key := rfl
@[simp] theorem State.assertRead_iv (v : Word) :
    (s.assertRead v).iv = s.iv := rfl
@[simp] theorem State.assertRead_blk (v : Word) :
    (s.assertRead v).blk = s.blk := rfl
@[simp] theorem State.assertRead_chain (v : Word) :
    (s.assertRead v).chain = s.chain := rfl
@[simp] theorem State.assertRead_sched (v : Word) :
    (s.assertRead v).sched = s.sched := rfl
@[simp] theorem State.assertRead_mbuf (v : Word) :
    (s.assertRead v).mbuf = s.mbuf := rfl
@[simp] theorem State.assertRead_engine (v : Word) :
    (s.assertRead v).engine = s.engine := rfl
@[simp] theorem State.assertRead_host (v : Word) :
    (s.assertRead v).host = { s.host with expectOk := s.host.expectOk && s.host.rdata == v } := rfl
@[simp] theorem State.assertRead_lats (v : Word) :
    (s.assertRead v).lats = s.lats := rfl
@[simp] theorem State.assertRead_draws (v : Word) :
    (s.assertRead v).draws = s.draws := rfl
@[simp] theorem State.assertRead_epoch (v : Word) :
    (s.assertRead v).epoch = s.epoch := rfl

/-! ### tick -/

@[simp] theorem State.tick_params :
    (s.tick).params = s.params := by
  unfold State.tick; split <;> rfl
@[simp] theorem State.tick_schedValid :
    (s.tick).schedValid = s.schedValid := by
  unfold State.tick; split <;> rfl
@[simp] theorem State.tick_drop :
    (s.tick).drop = s.drop := by
  unfold State.tick; split <;> rfl
@[simp] theorem State.tick_err :
    (s.tick).err = s.err := by
  unfold State.tick; split <;> rfl
@[simp] theorem State.tick_keylen :
    (s.tick).keylen = s.keylen := by
  unfold State.tick; split <;> rfl
@[simp] theorem State.tick_mlen :
    (s.tick).mlen = s.mlen := by
  unfold State.tick; split <;> rfl
@[simp] theorem State.tick_result :
    (s.tick).result = s.result := by
  unfold State.tick; split <;> rfl
@[simp] theorem State.tick_schedInfo :
    (s.tick).schedInfo = s.schedInfo := by
  unfold State.tick; split <;> rfl
@[simp] theorem State.tick_key :
    (s.tick).key = s.key := by
  unfold State.tick; split <;> rfl
@[simp] theorem State.tick_iv :
    (s.tick).iv = s.iv := by
  unfold State.tick; split <;> rfl
@[simp] theorem State.tick_blk :
    (s.tick).blk = s.blk := by
  unfold State.tick; split <;> rfl
@[simp] theorem State.tick_chain :
    (s.tick).chain = s.chain := by
  unfold State.tick; split <;> rfl
@[simp] theorem State.tick_sched :
    (s.tick).sched = s.sched := by
  unfold State.tick; split <;> rfl
@[simp] theorem State.tick_mbuf :
    (s.tick).mbuf = s.mbuf := by
  unfold State.tick; split <;> rfl
@[simp] theorem State.tick_engine :
    (s.tick).engine = s.engine := by
  unfold State.tick; split <;> rfl
@[simp] theorem State.tick_host :
    (s.tick).host = s.host := by
  unfold State.tick; split <;> rfl
@[simp] theorem State.tick_lats :
    (s.tick).lats = s.lats := by
  unfold State.tick; split <;> rfl
@[simp] theorem State.tick_draws :
    (s.tick).draws = s.draws := by
  unfold State.tick; split <;> rfl
@[simp] theorem State.tick_epoch :
    (s.tick).epoch = s.epoch := by
  unfold State.tick; split <;> rfl

/-! ### afterRead -/

@[simp] theorem State.afterRead_params (woff : BitVec 19) :
    (s.afterRead woff).params = s.params := by
  unfold State.afterRead; split <;> rfl
@[simp] theorem State.afterRead_pending (woff : BitVec 19) :
    (s.afterRead woff).pending = s.pending := by
  unfold State.afterRead; split <;> rfl
@[simp] theorem State.afterRead_schedValid (woff : BitVec 19) :
    (s.afterRead woff).schedValid = s.schedValid := by
  unfold State.afterRead; split <;> rfl
@[simp] theorem State.afterRead_drop (woff : BitVec 19) :
    (s.afterRead woff).drop = s.drop := by
  unfold State.afterRead; split <;> rfl
@[simp] theorem State.afterRead_err (woff : BitVec 19) :
    (s.afterRead woff).err = s.err := by
  unfold State.afterRead; split <;> rfl
@[simp] theorem State.afterRead_keylen (woff : BitVec 19) :
    (s.afterRead woff).keylen = s.keylen := by
  unfold State.afterRead; split <;> rfl
@[simp] theorem State.afterRead_mlen (woff : BitVec 19) :
    (s.afterRead woff).mlen = s.mlen := by
  unfold State.afterRead; split <;> rfl
@[simp] theorem State.afterRead_result (woff : BitVec 19) :
    (s.afterRead woff).result = s.result := by
  unfold State.afterRead; split <;> rfl
@[simp] theorem State.afterRead_schedInfo (woff : BitVec 19) :
    (s.afterRead woff).schedInfo = s.schedInfo := by
  unfold State.afterRead; split <;> rfl
@[simp] theorem State.afterRead_key (woff : BitVec 19) :
    (s.afterRead woff).key = s.key := by
  unfold State.afterRead; split <;> rfl
@[simp] theorem State.afterRead_iv (woff : BitVec 19) :
    (s.afterRead woff).iv = s.iv := by
  unfold State.afterRead; split <;> rfl
@[simp] theorem State.afterRead_blk (woff : BitVec 19) :
    (s.afterRead woff).blk = s.blk := by
  unfold State.afterRead; split <;> rfl
@[simp] theorem State.afterRead_chain (woff : BitVec 19) :
    (s.afterRead woff).chain = s.chain := by
  unfold State.afterRead; split <;> rfl
@[simp] theorem State.afterRead_sched (woff : BitVec 19) :
    (s.afterRead woff).sched = s.sched := by
  unfold State.afterRead; split <;> rfl
@[simp] theorem State.afterRead_mbuf (woff : BitVec 19) :
    (s.afterRead woff).mbuf = s.mbuf := by
  unfold State.afterRead; split <;> rfl
@[simp] theorem State.afterRead_engine (woff : BitVec 19) :
    (s.afterRead woff).engine = s.engine := by
  unfold State.afterRead; split <;> rfl
@[simp] theorem State.afterRead_host (woff : BitVec 19) :
    (s.afterRead woff).host = s.host := by
  unfold State.afterRead; split <;> rfl
@[simp] theorem State.afterRead_lats (woff : BitVec 19) :
    (s.afterRead woff).lats = s.lats := by
  unfold State.afterRead; split <;> rfl
@[simp] theorem State.afterRead_epoch (woff : BitVec 19) :
    (s.afterRead woff).epoch = s.epoch := by
  unfold State.afterRead; split <;> rfl

@[simp] theorem State.tick_busy : s.tick.busy = s.busy := by
  unfold State.tick State.busy; split <;> simp_all

/-! ### BUSY and the message buffer under the updates -/

@[simp] theorem State.raiseError_busy (c : ErrCode) : (s.raiseError c).busy = false := rfl
@[simp] theorem State.complete_busy : s.complete.busy = false := rfl
@[simp] theorem State.accept_busy (v : Word) : (s.accept v).busy = true := rfl
@[simp] theorem State.resetBlock_busy : s.resetBlock.busy = false := rfl

/-- A byte of MBUF depends on the listed bytes alone. -/
theorem State.mbufByte_congr {s t : State} (hm : t.mbuf = s.mbuf) (a : Nat) : t.mbufByte a = s.mbufByte a := by
  simp only [State.mbufByte, hm]

/-- MBUF after reset is the free value `mbuf0`. -/
@[simp] theorem State.resetBlock_mbufByte (a : Nat) : s.resetBlock.mbufByte a = Config.mbuf0 a := rfl

/-! A byte of MBUF after an update that writes none. -/

@[simp] theorem State.accept_mbufByte (v : Word) (a : Nat) : (s.accept v).mbufByte a = s.mbufByte a := rfl
@[simp] theorem State.raiseError_mbufByte (c : ErrCode) (a : Nat) : (s.raiseError c).mbufByte a = s.mbufByte a := rfl
@[simp] theorem State.complete_mbufByte (a : Nat) : s.complete.mbufByte a = s.mbufByte a := rfl
@[simp] theorem State.loadSchedule_mbufByte (ks : KeySize) (w : List Word) (a : Nat) : (s.loadSchedule ks w).mbufByte a = s.mbufByte a := rfl
@[simp] theorem State.cbcStart_mbufByte (ks : KeySize) (w : List Word) (a : Nat) : (s.cbcStart ks w).mbufByte a = s.mbufByte a := rfl
@[simp] theorem State.setResult_mbufByte (k : Nat) (a : Nat) : (s.setResult k).mbufByte a = s.mbufByte a := rfl
@[simp] theorem State.setMlen_mbufByte (n : Nat) (a : Nat) : (s.setMlen n).mbufByte a = s.mbufByte a := rfl

end Sys2Proof.Machine
end

