-- ==== Sys2Proof/Laws/Memory.lean ====
section
/-! SUPPORT. The laws of the message buffer: a read after a write, what a write leaves alone, and the canonical form. -/

namespace Sys2Proof.Machine

/-! ### Lists of cells -/

/-- A read after a write of one byte. -/
theorem Memory.lookup_write (m : List Host.Cell) (a x : Nat) (b : Byte) :
    Memory.lookup (Memory.write m a b) x = if x = a then some b else Memory.lookup m x := by
  induction m with
  | nil => simp only [Memory.write, Memory.lookup]; split_ifs <;> first | rfl | omega
  | cons c m ih =>
    unfold Memory.write
    split_ifs with h1 h2 <;> simp only [Memory.lookup, ih] <;> split_ifs <;> first | rfl | omega

/-- What a write lists: the new cell and old ones. -/
theorem Memory.mem_write {m : List Host.Cell} {a : Nat} {b : Byte} {c : Host.Cell}
    (h : c ∈ Memory.write m a b) : c = (a, b) ∨ c ∈ m := by
  induction m with
  | nil => simpa [Memory.write] using h
  | cons d m ih =>
    unfold Memory.write at h
    split_ifs at h <;> simp only [List.mem_cons] at h ⊢ <;> tauto

/-- A write keeps the canonical form. -/
theorem Memory.write_wf {m : List Host.Cell} (h : Memory.wf m) (a : Nat) (b : Byte) :
    Memory.wf (Memory.write m a b) := by
  induction m with
  | nil => simp [Memory.write]
  | cons c m ih =>
    obtain ⟨hc, hm⟩ := List.pairwise_cons.1 h
    unfold Memory.write
    split_ifs with h1 h2
    · refine List.pairwise_cons.2 ⟨fun d hd => ?_, h⟩
      rcases List.mem_cons.1 hd with rfl | hd
      · exact h1
      · exact h1.trans (hc d hd)
    · exact List.pairwise_cons.2 ⟨fun d hd => h2 ▸ hc d hd, hm⟩
    · refine List.pairwise_cons.2 ⟨fun d hd => ?_, ih hm⟩
      rcases Memory.mem_write hd with rfl | hd
      · simp only; omega
      · exact hc d hd

/-- A read after a write of consecutive bytes. -/
theorem Memory.lookup_writeBytes (m : List Host.Cell) (a x : Nat) (bs : List Byte) :
    Memory.lookup (Memory.writeBytes m a bs) x =
      if a ≤ x ∧ x < a + bs.length then bs[x - a]? else Memory.lookup m x := by
  induction bs generalizing m a with
  | nil => rw [Memory.writeBytes, if_neg (by simp)]
  | cons b bs ih =>
    rw [Memory.writeBytes, ih, Memory.lookup_write, List.length_cons]
    rcases lt_trichotomy x a with h | rfl | h
    · rw [if_neg (by omega), if_neg (by omega), if_neg (by omega)]
    · rw [if_neg (by omega), if_pos rfl, if_pos (by omega)]; simp
    · obtain ⟨d, rfl⟩ : ∃ d, x = a + 1 + d := ⟨x - (a + 1), by omega⟩
      have e1 : a + 1 + d - (a + 1) = d := by omega
      have e2 : a + 1 + d - a = d + 1 := by omega
      by_cases hd : d < bs.length
      · rw [if_pos (by omega), if_pos (by omega), e1, e2, List.getElem?_cons_succ]
      · rw [if_neg (by omega), if_neg (by omega), if_neg (by omega)]

/-- A write of consecutive bytes keeps the canonical form. -/
theorem Memory.writeBytes_wf {m : List Host.Cell} (h : Memory.wf m) (a : Nat) (bs : List Byte) :
    Memory.wf (Memory.writeBytes m a bs) := by
  induction bs generalizing m a with
  | nil => exact h
  | cons b bs ih => exact ih (Memory.write_wf h a b) (a + 1)

/-- A write below a bound keeps every listed index below it. -/
theorem Memory.writeBytes_bounded {m : List Host.Cell} {n : Nat} (h : ∀ c ∈ m, c.1 < n) (a : Nat)
    (bs : List Byte) (hb : a + bs.length ≤ n) : ∀ c ∈ Memory.writeBytes m a bs, c.1 < n := by
  induction bs generalizing m a with
  | nil => exact h
  | cons b bs ih =>
    rw [List.length_cons] at hb
    refine ih (fun c hc => ?_) (a + 1) (by omega)
    rcases Memory.mem_write hc with rfl | hc
    · simp only; omega
    · exact h c hc

/-- The canonical form is canonical: two memories in it that read alike are equal. -/
theorem Memory.wf_ext {m n : List Host.Cell} (hm : Memory.wf m) (hn : Memory.wf n)
    (h : ∀ a, Memory.lookup m a = Memory.lookup n a) : m = n := by
  have key : ∀ {m : List Host.Cell} {a : Nat}, (∀ c ∈ m, a < c.1) → Memory.lookup m a = none := by
    intro m
    induction m with
    | nil => intros; rfl
    | cons c m ih =>
      intro a ha
      have := ha c (by simp)
      rw [Memory.lookup, if_neg (by omega)]
      exact ih fun d hd => ha d (by simp [hd])
  induction m generalizing n with
  | nil =>
    cases n with
    | nil => rfl
    | cons d n => have := h d.1; simp [Memory.lookup] at this
  | cons c m ih =>
    cases n with
    | nil => have := h c.1; simp [Memory.lookup] at this
    | cons d n =>
      obtain ⟨hc, hm'⟩ := List.pairwise_cons.1 hm
      obtain ⟨hd, hn'⟩ := List.pairwise_cons.1 hn
      have hcd : c.1 = d.1 := by
        rcases lt_trichotomy c.1 d.1 with hlt | he | hlt
        · have h1 := h c.1
          rw [key (m := d :: n) (a := c.1) (by
            intro x hx
            rcases List.mem_cons.1 hx with rfl | hx
            · exact hlt
            · exact hlt.trans (hd x hx))] at h1
          simp [Memory.lookup] at h1
        · exact he
        · have h1 := h d.1
          rw [key (m := c :: m) (a := d.1) (by
            intro x hx
            rcases List.mem_cons.1 hx with rfl | hx
            · exact hlt
            · exact hlt.trans (hc x hx))] at h1
          simp [Memory.lookup] at h1
      have hv : c.2 = d.2 := by
        have h1 := h c.1
        rw [Memory.lookup, if_pos rfl, Memory.lookup, if_pos hcd.symm] at h1
        exact Option.some.inj h1
      have hh : c = d := Prod.ext hcd hv
      subst hh
      congr 1
      refine ih hm' hn' fun a => ?_
      have h1 := h a
      simp only [Memory.lookup] at h1
      split_ifs at h1 with ha
      · subst ha; rw [key hc, key hd]
      · exact h1

/-! ### MBUF as the state shows it -/

/-- MBUF after `MemWrite(a, n, V)`: V where it was written, and every other byte as before. -/
theorem State.memWrite_mbufByte (s : State) (a x : Nat) (bs : List Byte) :
    (s.memWrite a bs).mbufByte x =
      if h : a ≤ x ∧ x < a + bs.length then bs[x - a]'(by omega) else s.mbufByte x := by
  simp only [State.mbufByte, State.memWrite_mbuf, Memory.lookup_writeBytes]
  by_cases h : a ≤ x ∧ x < a + bs.length
  · rw [if_pos h, dif_pos h, List.getElem?_eq_getElem (by omega)]; rfl
  · rw [if_neg h, dif_neg h]

/-- A byte outside what `MemWrite` stores is unchanged. -/
theorem State.memWrite_frame (s : State) {a x : Nat} {bs : List Byte} (h : x < a ∨ a + bs.length ≤ x) :
    (s.memWrite a bs).mbufByte x = s.mbufByte x := by
  rw [State.memWrite_mbufByte, dif_neg (by omega)]

/-- A byte that `MemWrite` stores. -/
theorem State.memWrite_stored (s : State) {a k : Nat} {bs : List Byte} (h : k < bs.length) :
    (s.memWrite a bs).mbufByte (a + k) = bs[k] := by
  rw [State.memWrite_mbufByte, dif_pos (by omega)]
  simp

/-- `MemWrite` keeps the canonical form. -/
theorem State.memWrite_wf {s : State} (h : Memory.wf s.mbuf) (a : Nat) (bs : List Byte) :
    Memory.wf (s.memWrite a bs).mbuf := by
  rw [State.memWrite_mbuf]; exact Memory.writeBytes_wf h a bs

/-- The memory after reset is in canonical form. -/
theorem State.reset_mbuf_wf : Memory.wf State.reset.mbuf := List.Pairwise.nil

/-- A byte of a block read. -/
theorem State.memReadBlock_getElem (s : State) (a k : Nat) (h : k < 16) :
    (s.memReadBlock a)[k] = s.mbufByte (a + k) := by
  simp [State.memReadBlock]

/-- Two states with the same bytes at a .. a+15 read the same block there. -/
theorem State.memReadBlock_congr {s t : State} {a b : Nat}
    (h : ∀ k < 16, t.mbufByte (b + k) = s.mbufByte (a + k)) : t.memReadBlock b = s.memReadBlock a := by
  ext k hk
  rw [State.memReadBlock_getElem _ _ _ hk, State.memReadBlock_getElem _ _ _ hk, h k hk]

/-- A block read back where it was written. -/
theorem State.memReadBlock_memWrite (s : State) (a : Nat) (b : Block) :
    (s.memWrite a b.toList).memReadBlock a = b := by
  ext k hk
  rw [State.memReadBlock_getElem _ _ _ hk, State.memWrite_stored _ (by simpa using hk)]
  simp

end Sys2Proof.Machine
end

