-- ==== Sys2Proof/Laws/Cipher.lean ====
section
/-! SUPPORT. The laws of the field arithmetic and of the round transforms: linearity over XOR, and each byte of a
transformed block. -/

namespace Sys2Proof.Machine

/-! ### GF(2^8) -/

/-- `gmulLoop` is linear in its second factor and in its accumulator together. -/
theorem gmulLoop_xor (n : Nat) (a b c r q : Byte) :
    gmulLoop (b ^^^ c) n a (r ^^^ q) = gmulLoop b n a r ^^^ gmulLoop c n a q := by
  induction n generalizing a r q with
  | zero => rfl
  | succ n ih =>
    simp only [gmulLoop, BitVec.getLsbD_xor, ← ih]
    congr 1
    cases b.getLsbD (7 - n) <;> cases c.getLsbD (7 - n) <;> ext j hj <;>
      cases h1 : r[j] <;> cases h2 : q[j] <;> cases h3 : a[j] <;> simp [h1, h2, h3]

/-- The field product distributes over XOR in its second factor. -/
theorem gmul_xor (a b c : Byte) : gmul a (b ^^^ c) = gmul a b ^^^ gmul a c := by
  have h := gmulLoop_xor 8 a b c 0 0
  simpa [gmul] using h

/-! ### Blocks -/

@[simp] theorem xorBlock_getElem (a b : Block) (k : Nat) (h : k < 16) :
    (xorBlock a b)[k] = a[k] ^^^ b[k] := by simp [xorBlock]

/-- XOR with the same block twice. -/
theorem xorBlock_cancel (a b : Block) : xorBlock (xorBlock a b) b = a := by
  ext k hk; simp

@[simp] theorem addRoundKey_getElem (st : Block) (w : List Word) (rnd k : Nat) (h : k < 16) :
    (addRoundKey st w rnd)[k] = st[k] ^^^ wordByte (w.getD (4 * rnd + k / 4) 0) (k % 4) := by
  simp [addRoundKey]

@[simp] theorem subBytes_getElem (st : Block) (k : Nat) (h : k < 16) :
    (subBytes st)[k] = sbox st[k] := by simp [subBytes]

@[simp] theorem invSubBytes_getElem (st : Block) (k : Nat) (h : k < 16) :
    (invSubBytes st)[k] = invSbox st[k] := by simp [invSubBytes]

@[simp] theorem shiftRows_getElem (st : Block) (k : Nat) (h : k < 16) :
    (shiftRows st)[k] = st[4 * ((k / 4 + k % 4) % 4) + k % 4] := by simp [shiftRows]

@[simp] theorem invShiftRows_getElem (st : Block) (k : Nat) (h : k < 16) :
    (invShiftRows st)[k] = st[4 * ((k / 4 + 4 - k % 4) % 4) + k % 4] := by simp [invShiftRows]

@[simp] theorem mixColumns_getElem (st : Block) (k : Nat) (h : k < 16) :
    (mixColumns st)[k] =
      mixRow st[4 * (k / 4)] st[4 * (k / 4) + 1] st[4 * (k / 4) + 2] st[4 * (k / 4) + 3] (k % 4) := by
  simp [mixColumns]

@[simp] theorem invMixColumns_getElem (st : Block) (k : Nat) (h : k < 16) :
    (invMixColumns st)[k] =
      invMixRow st[4 * (k / 4)] st[4 * (k / 4) + 1] st[4 * (k / 4) + 2] st[4 * (k / 4) + 3] (k % 4) := by
  simp [invMixColumns]

/-! ### Key expansion -/

theorem expandStep_length (nk : Nat) (w : List Word) : (expandStep nk w).length = w.length + 1 := by
  simp [expandStep]

theorem expandLoop_length (nk n : Nat) (w : List Word) : (expandLoop nk n w).length = w.length + n := by
  induction n with
  | zero => rfl
  | succ n ih => simp [expandLoop, expandStep_length, ih, Nat.add_assoc]

/-- The words there are stay as they are. -/
theorem expandStep_getD (nk : Nat) (w : List Word) {i : Nat} (h : i < w.length) :
    (expandStep nk w).getD i 0 = w.getD i 0 := by
  simp [expandStep, List.getElem?_append_left h]

/-- The word that a turn derives. -/
theorem expandStep_getD_new (nk : Nat) (w : List Word) :
    (expandStep nk w).getD w.length 0 =
      w.getD (w.length - nk) 0 ^^^ expandTemp nk w.length (w.getD (w.length - 1) 0) := by
  simp [expandStep]

@[simp] theorem wordsOf_length (bs : List Byte) : (wordsOf bs).length = bs.length / 4 := by simp [wordsOf]

/-- A stored schedule: the new words below its length, the old ones above. -/
@[simp] theorem storeSched_getElem (old : Vector Word 60) (w : List Word) (i : Nat) (h : i < 60) :
    (storeSched old w)[i] = w.getD i old[i] := by simp [storeSched]

end Sys2Proof.Machine
end

