-- ==== Sys2Proof/Laws/Exec.lean ====
section
/-! SUPPORT. What each command can do: the turns and the loops of the CBC controller, and one inversion lemma for each
meaning. -/

namespace Sys2Proof.Machine

/-! ### Operands -/

@[simp] theorem keySizeOf_keyBytes (ks : KeySize) : keySizeOf (BitVec.ofNat 32 (keyBytes ks)) = some ks := by
  cases ks <;> rfl

/-- KEYLEN decodes to a size exactly when it is that size's length. -/
theorem keySizeOf_eq_some {v : Word} {ks : KeySize} :
    keySizeOf v = some ks ↔ v = BitVec.ofNat 32 (keyBytes ks) := by
  constructor
  · intro h
    unfold keySizeOf at h
    split_ifs at h <;> cases h <;> assumption
  · rintro rfl; simp

/-- KEYLEN decodes to nothing exactly when it is none of the three lengths. -/
theorem keySizeOf_eq_none {v : Word} :
    keySizeOf v = none ↔ v.toNat ≠ 16 ∧ v.toNat ≠ 24 ∧ v.toNat ≠ 32 := by
  unfold keySizeOf
  split_ifs with h1 h2 h3
  · subst h1; simp
  · subst h2; simp
  · subst h3; simp
  · simp only [true_iff]
    refine ⟨fun h => h1 ?_, fun h => h2 ?_, fun h => h3 ?_⟩ <;> exact BitVec.eq_of_toNat_eq (by simpa using h)

theorem messageLength?_eq_some {s : State} {n : Nat} :
    s.messageLength? = some n ↔ n = s.mlen.toNat ∧ s.mlen.toNat ≤ s.params.mbufSize := by
  unfold State.messageLength?
  split_ifs with h <;> simp [h, eq_comm]

theorem messageLength?_eq_none {s : State} :
    s.messageLength? = none ↔ s.params.mbufSize < s.mlen.toNat := by
  unfold State.messageLength?
  split_ifs with h <;> simp <;> omega

/-- The operands of a CBC command, when its three checks pass. -/
theorem cbcOperands_eq_ok {s : State} {ks : KeySize} {n : Nat} :
    s.cbcOperands = .ok (ks, n) ↔
      s.mlen.toNat ≤ s.params.mbufSize ∧ s.keylen = BitVec.ofNat 32 (keyBytes ks) ∧ s.mlen.toNat % 16 = 0 ∧
        n = s.mlen.toNat / 16 := by
  unfold State.cbcOperands
  rcases h : s.messageLength? with _ | m
  · have := messageLength?_eq_none.1 h
    simp; omega
  · obtain ⟨rfl, hle⟩ := messageLength?_eq_some.1 h
    rcases hk : keySizeOf s.keylen with _ | ks'
    · have : s.keylen ≠ BitVec.ofNat 32 (keyBytes ks) := by
        intro hh; rw [hh] at hk; simp at hk
      simp [this]
    · rw [keySizeOf_eq_some.1 hk]
      have hinj : ∀ a b : KeySize, BitVec.ofNat 32 (keyBytes a) = BitVec.ofNat 32 (keyBytes b) ↔ a = b := by
        intro a b; cases a <;> cases b <;> decide
      rw [hinj]
      simp only
      split_ifs with ha
      · simp only [Except.ok.injEq, Prod.mk.injEq, hle, ha, true_and, eq_comm]
      · simp [ha]

/-! ### The turns and the loops of the CBC controller -/

/-- Everything one turn of CBCENC changes. -/
theorem cbcEncBlock_eq (w : List Word) (nr : Nat) (s : State) :
    cbcEncBlock w nr s =
      { s with
        chain := cipher (xorBlock (s.messageBlock s.engine.blockIdx) s.chain) w nr
        mbuf := Memory.writeBytes s.mbuf (16 * s.engine.blockIdx)
          (cipher (xorBlock (s.messageBlock s.engine.blockIdx) s.chain) w nr).toList
        engine :=
          { s.engine with
            round := cipher (xorBlock (s.messageBlock s.engine.blockIdx) s.chain) w nr
            rnd := nr
            blockIdx := s.engine.blockIdx + 1 } } := by
  simp only [cbcEncBlock, State.runCipher, State.memWrite, State.nextBlock, State.messageBlock]

/-- Everything one turn of CBCDEC changes. -/
theorem cbcDecBlock_eq (w : List Word) (nr : Nat) (s : State) :
    cbcDecBlock w nr s =
      { s with
        chain := s.messageBlock s.engine.blockIdx
        mbuf := Memory.writeBytes s.mbuf (16 * s.engine.blockIdx)
          (xorBlock (invCipher (s.messageBlock s.engine.blockIdx) w nr) s.chain).toList
        engine :=
          { round := invCipher (s.messageBlock s.engine.blockIdx) w nr
            rnd := 0
            blockIdx := s.engine.blockIdx + 1
            prev := s.messageBlock s.engine.blockIdx } } := by
  simp only [cbcDecBlock, State.capturePrev, State.runInvCipher, State.memWrite, State.nextBlock, State.messageBlock]

/-- What every turn keeps, the loop keeps. -/
theorem blockLoop_induction {turn : State → State} (P : State → Prop) (h : ∀ s, P s → P (turn s)) (n : Nat)
    {s : State} (hs : P s) : P (blockLoop turn n s) := by
  induction n with
  | zero => exact hs
  | succ n ih => exact h _ ih

/-- The fields of a state that no turn of the CBC controller writes. -/
structure State.CbcKeeps (s t : State) : Prop where
  eq : t = { s with chain := t.chain, mbuf := t.mbuf, engine := t.engine }

theorem cbcEncBlock_keeps (w : List Word) (nr : Nat) (s t : State) (h : s.CbcKeeps t) :
    s.CbcKeeps (cbcEncBlock w nr t) := by
  constructor; rw [cbcEncBlock_eq, h.eq]

theorem cbcDecBlock_keeps (w : List Word) (nr : Nat) (s t : State) (h : s.CbcKeeps t) :
    s.CbcKeeps (cbcDecBlock w nr t) := by
  constructor; rw [cbcDecBlock_eq, h.eq]

/-- The loop of CBCENC writes CHAIN, MBUF and the hidden state alone. -/
theorem cbcEncLoop_keeps (w : List Word) (nr n : Nat) (s : State) :
    s.CbcKeeps (blockLoop (cbcEncBlock w nr) n s) :=
  blockLoop_induction _ (fun t h => cbcEncBlock_keeps w nr s t h) n ⟨rfl⟩

/-- The loop of CBCDEC writes CHAIN, MBUF and the hidden state alone. -/
theorem cbcDecLoop_keeps (w : List Word) (nr n : Nat) (s : State) :
    s.CbcKeeps (blockLoop (cbcDecBlock w nr) n s) :=
  blockLoop_induction _ (fun t h => cbcDecBlock_keeps w nr s t h) n ⟨rfl⟩

/-- A byte of MBUF after a turn that stores the block `b` at 16·i. -/
theorem turn_mbufByte {s t : State} {i : Nat} {b : Block}
    (hm : t.mbuf = Memory.writeBytes s.mbuf (16 * i) b.toList) (a : Nat) :
    t.mbufByte a = (s.memWrite (16 * i) b.toList).mbufByte a := by
  exact State.mbufByte_congr hm a

/-- The block stored is read back, and every other block and byte as before. -/
theorem turn_messageBlock {s t : State} {i : Nat} {b : Block}
    (hm : t.mbuf = Memory.writeBytes s.mbuf (16 * i) b.toList) :
    t.messageBlock i = b ∧ (∀ j, j ≠ i → t.messageBlock j = s.messageBlock j) ∧
      (∀ a, a < 16 * i ∨ 16 * i + 16 ≤ a → t.mbufByte a = s.mbufByte a) := by
  have hb := turn_mbufByte hm
  refine ⟨?_, fun j hj => ?_, fun a ha => ?_⟩
  · rw [← State.memReadBlock_memWrite s (16 * i) b]
    exact State.memReadBlock_congr fun k _ => hb _
  · refine State.memReadBlock_congr fun k hk => ?_
    rw [hb, State.memWrite_frame]
    simp only [Vector.length_toList]
    omega
  · rw [hb, State.memWrite_frame]
    simpa using ha

/-- What one turn of CBCENC does to CHAIN, the block counter and the message (43_cbc.md R93). -/
theorem cbcEncBlock_spec (w : List Word) (nr : Nat) (s : State) {n : Nat} (hn : s.engine.blockIdx = n) :
    let t := cbcEncBlock w nr s
    t.engine.blockIdx = n + 1 ∧
    t.messageBlock n = cipher (xorBlock (s.messageBlock n) s.chain) w nr ∧
    t.chain = t.messageBlock n ∧
    (∀ j, j ≠ n → t.messageBlock j = s.messageBlock j) ∧
    (∀ a, a < 16 * n ∨ 16 * n + 16 ≤ a → t.mbufByte a = s.mbufByte a) := by
  intro t
  have heq : t = _ := cbcEncBlock_eq w nr s
  rw [hn] at heq
  generalize hc : cipher (xorBlock (s.messageBlock n) s.chain) w nr = c at heq ⊢
  have hm : t.mbuf = Memory.writeBytes s.mbuf (16 * n) c.toList := by rw [heq]
  obtain ⟨h1, h2, h3⟩ := turn_messageBlock hm
  exact ⟨by rw [heq], h1, by rw [h1, heq], h2, h3⟩

/-- What one turn of CBCDEC does to CHAIN, the block counter and the message (43_cbc.md R95). -/
theorem cbcDecBlock_spec (w : List Word) (nr : Nat) (s : State) {n : Nat} (hn : s.engine.blockIdx = n) :
    let t := cbcDecBlock w nr s
    t.engine.blockIdx = n + 1 ∧
    t.messageBlock n = xorBlock (invCipher (s.messageBlock n) w nr) s.chain ∧
    t.chain = s.messageBlock n ∧
    (∀ j, j ≠ n → t.messageBlock j = s.messageBlock j) ∧
    (∀ a, a < 16 * n ∨ 16 * n + 16 ≤ a → t.mbufByte a = s.mbufByte a) := by
  intro t
  have heq : t = _ := cbcDecBlock_eq w nr s
  rw [hn] at heq
  generalize invCipher (s.messageBlock n) w nr = c at heq ⊢
  have hm : t.mbuf = Memory.writeBytes s.mbuf (16 * n) (xorBlock c s.chain).toList := by rw [heq]
  obtain ⟨h1, h2, h3⟩ := turn_messageBlock hm
  exact ⟨by rw [heq], h1, by rw [heq], h2, h3⟩

/-- What the loop of CBCENC computes in n turns from block 0 (43_cbc.md R93). -/
theorem cbcEncLoop_spec (w : List Word) (nr : Nat) {s : State} (h0 : s.engine.blockIdx = 0) (n : Nat) :
    let t := blockLoop (cbcEncBlock w nr) n s
    t.engine.blockIdx = n ∧
    (∀ i, i < n → t.messageBlock i =
      cipher (xorBlock (s.messageBlock i) (chainInput s.chain t.messageBlock i)) w nr) ∧
    t.chain = chainInput s.chain t.messageBlock n ∧
    (∀ i, n ≤ i → t.messageBlock i = s.messageBlock i) ∧
    (∀ a, 16 * n ≤ a → t.mbufByte a = s.mbufByte a) := by
  induction n with
  | zero => exact ⟨h0, by simp, rfl, fun _ _ => rfl, fun _ _ => rfl⟩
  | succ n ih =>
    simp only [blockLoop] at ih ⊢
    generalize blockLoop (cbcEncBlock w nr) n s = u at ih ⊢
    obtain ⟨hi, hb, hc, hk, ha⟩ := ih
    obtain ⟨g0, g1, g2, g3, g4⟩ := cbcEncBlock_spec w nr u hi
    generalize cbcEncBlock w nr u = t at g0 g1 g2 g3 g4 ⊢
    have hchain : ∀ i, i ≤ n → chainInput s.chain t.messageBlock i = chainInput s.chain u.messageBlock i := by
      intro i hin
      cases i with
      | zero => rfl
      | succ i => exact g3 i (by omega)
    refine ⟨g0, fun i hin => ?_, g2, fun i hin => ?_, fun a hin => ?_⟩
    · rcases Nat.lt_succ_iff_lt_or_eq.1 hin with hlt | rfl
      · rw [g3 i (by omega), hb i hlt, hchain i (by omega)]
      · rw [g1, hchain _ le_rfl, ← hc, hk _ le_rfl]
    · rw [g3 i (by omega), hk i (by omega)]
    · rw [g4 a (by omega), ha a (by omega)]

/-- What the loop of CBCDEC computes in n turns from block 0 (43_cbc.md R95, R96). -/
theorem cbcDecLoop_spec (w : List Word) (nr : Nat) {s : State} (h0 : s.engine.blockIdx = 0) (n : Nat) :
    let t := blockLoop (cbcDecBlock w nr) n s
    t.engine.blockIdx = n ∧
    (∀ i, i < n → t.messageBlock i =
      xorBlock (invCipher (s.messageBlock i) w nr) (chainInput s.chain s.messageBlock i)) ∧
    t.chain = chainInput s.chain s.messageBlock n ∧
    (∀ i, n ≤ i → t.messageBlock i = s.messageBlock i) ∧
    (∀ a, 16 * n ≤ a → t.mbufByte a = s.mbufByte a) := by
  induction n with
  | zero => exact ⟨h0, by simp, rfl, fun _ _ => rfl, fun _ _ => rfl⟩
  | succ n ih =>
    simp only [blockLoop] at ih ⊢
    generalize blockLoop (cbcDecBlock w nr) n s = u at ih ⊢
    obtain ⟨hi, hb, hc, hk, ha⟩ := ih
    obtain ⟨g0, g1, g2, g3, g4⟩ := cbcDecBlock_spec w nr u hi
    generalize cbcDecBlock w nr u = t at g0 g1 g2 g3 g4 ⊢
    refine ⟨g0, fun i hin => ?_, ?_, fun i hin => ?_, fun a hin => ?_⟩
    · rcases Nat.lt_succ_iff_lt_or_eq.1 hin with hlt | rfl
      · rw [g3 i (by omega), hb i hlt]
      · rw [g1, hk _ le_rfl, hc]
    · rw [g2, hk n le_rfl]; rfl
    · rw [g3 i (by omega), hk i (by omega)]
    · rw [g4 a (by omega), ha a (by omega)]

/-! ### What each meaning can do -/

theorem execKeyexp_cases {s t : State} (h : exec .keyexp s = .next t) :
    (keySizeOf s.keylen = none ∧ t = s.raiseError .invalidKeyLength) ∨
    (∃ ks, keySizeOf s.keylen = some ks ∧ t = (s.loadSchedule ks (expand (s.keyOperand ks))).complete) := by
  simp only [exec, execKeyexp] at h
  split at h <;> cases h
  · exact .inl ⟨‹_›, rfl⟩
  · exact .inr ⟨_, ‹_›, rfl⟩

theorem execEncblk_cases {s t : State} (h : exec .encblk s = .next t) :
    (s.schedValid = false ∧ t = s.raiseError .noSchedule) ∨
    (s.schedValid = true ∧
      t = { s.runCipher s.blk s.storedSchedule (infoNr s.schedInfo) with
            blk := cipher s.blk s.storedSchedule (infoNr s.schedInfo) }.complete) := by
  simp only [exec, execEncblk] at h
  split_ifs at h with hv <;> cases h
  · exact .inr ⟨hv, rfl⟩
  · exact .inl ⟨by simpa using hv, rfl⟩

theorem execDecblk_cases {s t : State} (h : exec .decblk s = .next t) :
    (s.schedValid = false ∧ t = s.raiseError .noSchedule) ∨
    (s.schedValid = true ∧
      t = { s.runInvCipher s.blk s.storedSchedule (infoNr s.schedInfo) with
            blk := invCipher s.blk s.storedSchedule (infoNr s.schedInfo) }.complete) := by
  simp only [exec, execDecblk] at h
  split_ifs at h with hv <;> cases h
  · exact .inr ⟨hv, rfl⟩
  · exact .inl ⟨by simpa using hv, rfl⟩

theorem execCbcenc_cases {s t : State} (h : exec .cbcenc s = .next t) :
    (∃ c, s.cbcOperands = .error c ∧ t = s.raiseError c) ∨
    (∃ ks n, s.cbcOperands = .ok (ks, n) ∧
      t = (blockLoop (cbcEncBlock (expand (s.keyOperand ks)) (keyNr ks)) n
            (s.cbcStart ks (expand (s.keyOperand ks)))).complete) := by
  simp only [exec, execCbcenc] at h
  split at h <;> cases h
  · exact .inl ⟨_, ‹_›, rfl⟩
  · exact .inr ⟨_, _, ‹_›, rfl⟩

theorem execCbcdec_cases {s t : State} (h : exec .cbcdec s = .next t) :
    (∃ c, s.cbcOperands = .error c ∧ t = s.raiseError c) ∨
    (∃ ks n, s.cbcOperands = .ok (ks, n) ∧
      t = (blockLoop (cbcDecBlock (expand (s.keyOperand ks)) (keyNr ks)) n
            (s.cbcStart ks (expand (s.keyOperand ks)))).complete) := by
  simp only [exec, execCbcdec] at h
  split at h <;> cases h
  · exact .inl ⟨_, ‹_›, rfl⟩
  · exact .inr ⟨_, _, ‹_›, rfl⟩

theorem execPad_cases {s t : State} (h : exec .pad s = .next t) :
    (s.params.mbufSize < s.mlen.toNat ∧ t = s.raiseError .bufferRange) ∨
    (s.mlen.toNat ≤ s.params.mbufSize ∧ s.params.mbufSize < s.mlen.toNat + padCount s.mlen.toNat ∧
      t = s.raiseError .bufferOverflow) ∨
    (s.mlen.toNat + padCount s.mlen.toNat ≤ s.params.mbufSize ∧
      t = (((s.memWrite s.mlen.toNat (List.replicate (padCount s.mlen.toNat)
              (BitVec.ofNat 8 (padCount s.mlen.toNat)))).setMlen
            (s.mlen.toNat + padCount s.mlen.toNat)).setResult (padCount s.mlen.toNat)).complete) := by
  simp only [exec, execPad] at h
  split at h
  · cases h; exact .inl ⟨messageLength?_eq_none.1 ‹_›, rfl⟩
  · rename_i n hn
    obtain ⟨rfl, hle⟩ := messageLength?_eq_some.1 hn
    split_ifs at h with ho <;> cases h
    · exact .inr (.inl ⟨hle, ho, rfl⟩)
    · exact .inr (.inr ⟨by omega, rfl⟩)

theorem execPadlen_cases {s t : State} (h : exec .padlen s = .next t) :
    (s.params.mbufSize < s.mlen.toNat ∧ t = s.raiseError .bufferRange) ∨
    (s.mlen.toNat ≤ s.params.mbufSize ∧ t = (s.setResult (s.padLength s.mlen.toNat)).complete) := by
  simp only [exec, execPadlen] at h
  split at h
  · cases h; exact .inl ⟨messageLength?_eq_none.1 ‹_›, rfl⟩
  · rename_i n hn
    obtain ⟨rfl, hle⟩ := messageLength?_eq_some.1 hn
    cases h; exact .inr ⟨hle, rfl⟩

theorem execUnpad_cases {s t : State} (h : exec .unpad s = .next t) :
    (s.params.mbufSize < s.mlen.toNat ∧ t = s.raiseError .bufferRange) ∨
    (s.mlen.toNat ≤ s.params.mbufSize ∧
      t = ((s.setMlen (s.mlen.toNat - s.padLength s.mlen.toNat)).setResult
            (s.padLength s.mlen.toNat)).complete) := by
  simp only [exec, execUnpad] at h
  split at h
  · cases h; exact .inl ⟨messageLength?_eq_none.1 ‹_›, rfl⟩
  · rename_i n hn
    obtain ⟨rfl, hle⟩ := messageLength?_eq_some.1 hn
    cases h; exact .inr ⟨hle, rfl⟩

/-! ### PadLength -/

/-- The pad length is at most 16 and at most the message length. -/
theorem padLength_le (s : State) (n : Nat) : s.padLength n ≤ 16 ∧ s.padLength n ≤ n := by
  unfold State.padLength
  split_ifs with h1
  · omega
  · simp only; split_ifs <;> omega

/-- The pad count is in 1..16 and completes a block. -/
theorem padCount_spec (n : Nat) : 1 ≤ padCount n ∧ padCount n ≤ 16 ∧ (n + padCount n) % 16 = 0 := by
  unfold padCount; omega

end Sys2Proof.Machine
end

