-- ==== Sys2Proof/Laws/PerInstr.lean ====
section
/-! SUPPORT. Facts about each command as syntax, one lemma for each constructor. -/

/-- Family CommandWord: the command word has RSV = 0 and an assigned opcode, and the opcode table's reading of it is the
command (30_encoding.md R59, R60). -/
def Sys2Proof.Laws.CommandWord.Statement (i : Sys2Proof.Instr) : Prop :=
  Sys2Proof.rsvField (Sys2Proof.encode i) = 0 ∧
  1 ≤ (Sys2Proof.opField (Sys2Proof.encode i)).toNat ∧ (Sys2Proof.opField (Sys2Proof.encode i)).toNat ≤ 8 ∧
  Sys2Proof.decodeTableWord 32 (Sys2Proof.encode i).toNat = some i

theorem Sys2Proof.Laws.CommandWord.keyexp : Sys2Proof.Laws.CommandWord.Statement .keyexp := by
  unfold Sys2Proof.Laws.CommandWord.Statement; decide

theorem Sys2Proof.Laws.CommandWord.encblk : Sys2Proof.Laws.CommandWord.Statement .encblk := by
  unfold Sys2Proof.Laws.CommandWord.Statement; decide

theorem Sys2Proof.Laws.CommandWord.decblk : Sys2Proof.Laws.CommandWord.Statement .decblk := by
  unfold Sys2Proof.Laws.CommandWord.Statement; decide

theorem Sys2Proof.Laws.CommandWord.cbcenc : Sys2Proof.Laws.CommandWord.Statement .cbcenc := by
  unfold Sys2Proof.Laws.CommandWord.Statement; decide

theorem Sys2Proof.Laws.CommandWord.cbcdec : Sys2Proof.Laws.CommandWord.Statement .cbcdec := by
  unfold Sys2Proof.Laws.CommandWord.Statement; decide

theorem Sys2Proof.Laws.CommandWord.pad : Sys2Proof.Laws.CommandWord.Statement .pad := by
  unfold Sys2Proof.Laws.CommandWord.Statement; decide

theorem Sys2Proof.Laws.CommandWord.padlen : Sys2Proof.Laws.CommandWord.Statement .padlen := by
  unfold Sys2Proof.Laws.CommandWord.Statement; decide

theorem Sys2Proof.Laws.CommandWord.unpad : Sys2Proof.Laws.CommandWord.Statement .unpad := by
  unfold Sys2Proof.Laws.CommandWord.Statement; decide
end

