-- ==== Sys2Proof/Laws/Port.lean ====
section
/-! SUPPORT. The register map: what the selected row says of the word offset, and the row at a word offset. -/

namespace Sys2Proof.Machine

/-- What a row of the register map says of the word offset that selects it (10_state.md R15, R32). -/
def targetSays (p : Params) (o : Nat) : Target → Prop
  | .cmd => o = 0x000
  | .status => o = 0x001
  | .keylen => o = 0x002
  | .mlen => o = 0x003
  | .result => o = 0x004
  | .schedInfo => o = 0x005
  | .id => o = 0x006
  | .caps => o = 0x007
  | .key q => o = 0x008 + q.val
  | .iv q => o = 0x010 + q.val
  | .blk q => o = 0x014 + q.val
  | .chain q => o = 0x018 + q.val
  | .sched i => o = 0x040 + i.val
  | .mbuf q => o = 0x400 + q ∧ 4 * q < p.mbufSize
  | .reserved => (0x01C ≤ o ∧ o < 0x040) ∨ (0x07C ≤ o ∧ o < 0x400) ∨ 0x1000 + p.mbufSize ≤ 4 * o

theorem mbufSize_bounds (p : Params) : p.mbufSize % 16 = 0 ∧ 16 ≤ p.mbufSize ∧ p.mbufSize ≤ 1048576 := by
  unfold Params.mbufSize; omega

/-- The row selected says what it says. -/
theorem targetAt_says (p : Params) (o : Nat) : targetSays p o (targetAt p o) := by
  have hm := (mbufSize_bounds p).2.1
  have ha : p.aperture = 0x1000 + p.mbufSize := rfl
  unfold targetAt
  by_cases h0 : o = 0x000
  · rw [if_pos h0]; exact h0
  rw [if_neg h0]
  by_cases h1 : o = 0x001
  · rw [if_pos h1]; exact h1
  rw [if_neg h1]
  by_cases h2 : o = 0x002
  · rw [if_pos h2]; exact h2
  rw [if_neg h2]
  by_cases h3 : o = 0x003
  · rw [if_pos h3]; exact h3
  rw [if_neg h3]
  by_cases h4 : o = 0x004
  · rw [if_pos h4]; exact h4
  rw [if_neg h4]
  by_cases h5 : o = 0x005
  · rw [if_pos h5]; exact h5
  rw [if_neg h5]
  by_cases h6 : o = 0x006
  · rw [if_pos h6]; exact h6
  rw [if_neg h6]
  by_cases h7 : o = 0x007
  · rw [if_pos h7]; exact h7
  rw [if_neg h7]
  by_cases k0 : 0x008 ≤ o ∧ o < 0x010
  · rw [dif_pos k0]; simp only [targetSays]; omega
  rw [dif_neg k0]
  by_cases k1 : 0x010 ≤ o ∧ o < 0x014
  · rw [dif_pos k1]; simp only [targetSays]; omega
  rw [dif_neg k1]
  by_cases k2 : 0x014 ≤ o ∧ o < 0x018
  · rw [dif_pos k2]; simp only [targetSays]; omega
  rw [dif_neg k2]
  by_cases k3 : 0x018 ≤ o ∧ o < 0x01C
  · rw [dif_pos k3]; simp only [targetSays]; omega
  rw [dif_neg k3]
  by_cases k4 : 0x040 ≤ o ∧ o < 0x07C
  · rw [dif_pos k4]; simp only [targetSays]; omega
  rw [dif_neg k4]
  by_cases k5 : 0x400 ≤ o ∧ 4 * o < p.aperture
  · rw [if_pos k5]; simp only [targetSays]; omega
  rw [if_neg k5]
  simp only [targetSays]; omega

theorem decodeTarget_says (p : Params) (woff : BitVec 19) : targetSays p woff.toNat (decodeTarget p woff) :=
  targetAt_says p woff.toNat

/-- A word offset is in one row only. -/
theorem targetSays_unique {p : Params} {o : Nat} {t u : Target} (ht : targetSays p o t)
    (hu : targetSays p o u) : t = u := by
  have hm := (mbufSize_bounds p).2.1
  cases t <;> cases u <;> simp only [targetSays] at ht hu <;> first
    | rfl
    | (exfalso; omega)
    | (congr 1; omega)

/-- The row at a word offset, from what the row says of it. -/
theorem decodeTarget_eq {p : Params} {woff : BitVec 19} {t : Target} (h : targetSays p woff.toNat t) :
    decodeTarget p woff = t :=
  targetSays_unique (decodeTarget_says p woff) h

/-- Two offsets in the same row that is not reserved are equal. -/
theorem decodeTarget_inj {p : Params} {a b : BitVec 19} (h : decodeTarget p a = decodeTarget p b)
    (hr : decodeTarget p a ≠ .reserved) : a = b := by
  have ha := decodeTarget_says p a
  have hb := decodeTarget_says p b
  rw [← h] at hb
  apply BitVec.eq_of_toNat_eq
  generalize decodeTarget p a = t at *
  cases t <;> simp only [targetSays] at ha hb <;> first | omega | exact absurd rfl hr

end Sys2Proof.Machine
end

