-- ==== Sys2Proof/Laws/Step.lean ====
section
/-! SUPPORT. What a host access, a turn of the host and a step can do. -/

namespace Sys2Proof.Machine

/-! ### The step -/

/-- Everything a step can be: a command, an illegal word's end, or a turn of the host. -/
theorem step_cases {s t : State} (h : step s = .next t) :
    (∃ w i, s.dueWord = some w ∧ decodeCmdw w = .ok i ∧ exec i s = .next t) ∨
    (∃ w r, s.dueWord = some w ∧ decodeCmdw w = .error r ∧ t = s.raiseError .illegalCmd) ∨
    (s.dueWord = none ∧ t = s.hostCycle) := by
  unfold step at h
  split at h
  · split at h
    · exact .inl ⟨_, _, ‹_›, ‹_›, h⟩
    · cases h; exact .inr (.inl ⟨_, _, ‹_›, ‹_›, rfl⟩)
  · cases h; exact .inr (.inr ⟨‹_›, rfl⟩)

theorem step_of_due_ok {s : State} {w : Word} {i : Instr} (hw : s.dueWord = some w)
    (hd : decodeCmdw w = .ok i) : step s = exec i s := by
  simp [step, hw, hd]

theorem step_of_due_error {s : State} {w : Word} {r : Reject} (hw : s.dueWord = some w)
    (hd : decodeCmdw w = .error r) : step s = .next (s.raiseError .illegalCmd) := by
  simp [step, hw, hd]

theorem step_of_not_due {s : State} (hw : s.dueWord = none) : step s = .next s.hostCycle := by
  simp [step, hw]

theorem dueWord_eq_some {s : State} {w : Word} : s.dueWord = some w ↔ s.pending = some ⟨w, 0⟩ := by
  unfold State.dueWord
  split
  · rename_i w' h; simp [h]
  · rename_i h
    simp only [reduceCtorEq, false_iff]
    exact h w

theorem dueWord_of_wait {s : State} {w : Word} {n : Nat} (h : s.pending = some ⟨w, n + 1⟩) :
    s.dueWord = none := by
  simp [State.dueWord, h]

theorem dueWord_of_idle {s : State} (h : s.busy = false) : s.dueWord = none := by
  have : s.pending = none := by simpa [State.busy] using h
  simp [State.dueWord, this]

/-- A turn of an idle block passes no latency. -/
theorem tick_of_idle {s : State} (h : s.busy = false) : s.tick = s := by
  have : s.pending = none := by simpa [State.busy] using h
  simp [State.tick, this]

@[simp] theorem tick_currentLine (s : State) : s.tick.currentLine = s.currentLine := by
  simp [State.currentLine]

/-- A run of one step more, from the step's state. -/
theorem core_run_succ {s t : State} (h : step s = .next t) (k : Nat) :
    Sys2Proof.core.run (k + 1) s = Sys2Proof.core.run k t := by
  have : Sys2Proof.core.step s = .next t := h
  simp only [Host.Core.run, this]

/-! ### Accesses of the host -/

@[simp] theorem readIsDraw_status (s : State) : s.readIsDraw statusWoff = false := by
  have : decodeTarget s.params statusWoff = .status := rfl
  simp [State.readIsDraw, this, definedWhileBusy]

/-- A read of STATUS gives its word, busy or not (10_state.md R38). -/
@[simp] theorem readWord_status (s : State) : s.readWord statusWoff = statusWord s := by
  have : decodeTarget s.params statusWoff = .status := rfl
  simp [State.readWord, this, State.registerWord]

/-- A read of an idle block draws nothing. -/
theorem afterRead_of_idle {s : State} (h : s.busy = false) (woff : BitVec 19) : s.afterRead woff = s := by
  simp [State.afterRead, State.readIsDraw, h]

theorem readWord_of_idle {s : State} (h : s.busy = false) (woff : BitVec 19) :
    s.readWord woff = s.registerWord (decodeTarget s.params woff) := by
  simp [State.readWord, State.readIsDraw, h]

theorem hostWrite_of_idle {s : State} (h : s.busy = false) (woff : BitVec 19) (v : Word) :
    s.hostWrite woff v = s.writeIdle (decodeTarget s.params woff) v := by
  simp [State.hostWrite, h]

/-- The registers that no host access writes. -/
structure State.HostKeeps (s t : State) : Prop where
  params : t.params = s.params
  schedValid : t.schedValid = s.schedValid
  result : t.result = s.result
  schedInfo : t.schedInfo = s.schedInfo
  chain : t.chain = s.chain
  sched : t.sched = s.sched
  engine : t.engine = s.engine
  epoch : t.epoch = s.epoch

theorem State.HostKeeps.refl (s : State) : s.HostKeeps s := ⟨rfl, rfl, rfl, rfl, rfl, rfl, rfl, rfl⟩

theorem State.HostKeeps.trans {s t u : State} (h : s.HostKeeps t) (g : t.HostKeeps u) : s.HostKeeps u :=
  ⟨g.params.trans h.params, g.schedValid.trans h.schedValid, g.result.trans h.result,
   g.schedInfo.trans h.schedInfo, g.chain.trans h.chain, g.sched.trans h.sched, g.engine.trans h.engine,
   g.epoch.trans h.epoch⟩

theorem writeBusy_keeps (s : State) (x : Target) (v : Word) : s.HostKeeps (s.writeBusy x v) := by
  unfold State.writeBusy; split <;> exact ⟨rfl, rfl, rfl, rfl, rfl, rfl, rfl, rfl⟩

theorem writeIdle_keeps (s : State) (x : Target) (v : Word) : s.HostKeeps (s.writeIdle x v) := by
  cases x <;> constructor <;> simp [State.writeIdle]

theorem hostWrite_keeps (s : State) (woff : BitVec 19) (v : Word) : s.HostKeeps (s.hostWrite woff v) := by
  unfold State.hostWrite
  split
  · exact writeBusy_keeps ..
  · exact writeIdle_keeps ..

theorem hostRead_keeps (s : State) (woff : BitVec 19) : s.HostKeeps (s.hostRead woff) := by
  constructor <;> simp [State.hostRead]

theorem transact_keeps (s : State) (x : Htx) : s.HostKeeps (s.transact x) := by
  cases x
  · exact hostRead_keeps ..
  · exact hostWrite_keeps ..

theorem advance_keeps (s : State) : s.HostKeeps s.advance := ⟨rfl, rfl, rfl, rfl, rfl, rfl, rfl, rfl⟩

theorem goto_keeps (s : State) (l : Nat) : s.HostKeeps (s.goto l) := ⟨rfl, rfl, rfl, rfl, rfl, rfl, rfl, rfl⟩

theorem assertRead_keeps (s : State) (v : Word) : s.HostKeeps (s.assertRead v) :=
  ⟨rfl, rfl, rfl, rfl, rfl, rfl, rfl, rfl⟩

theorem tick_keeps (s : State) : s.HostKeeps s.tick := by constructor <;> simp

/-- A line that does not assert `rst` keeps the registers that no host access writes. -/
theorem runLine_keeps (s : State) (l : Line) (h : ∀ x, l ≠ .rst x) : s.HostKeeps (s.runLine l) := by
  cases l with
  | htx x => exact (transact_keeps s x).trans (advance_keeps _)
  | wait =>
    simp only [State.runLine]; split
    · exact hostRead_keeps ..
    · exact (hostRead_keeps ..).trans (advance_keeps _)
  | expect woff v => exact ((hostRead_keeps s woff).trans (assertRead_keeps _ v)).trans (advance_keeps _)
  | brerr c l =>
    simp only [State.runLine]; split
    · exact goto_keeps ..
    · exact advance_keeps _
  | brres v l =>
    simp only [State.runLine]; split
    · exact (hostRead_keeps ..).trans (goto_keeps ..)
    · exact (hostRead_keeps ..).trans (advance_keeps _)
  | jmp l => exact goto_keeps ..
  | halt => exact .refl s
  | idle => exact advance_keeps s
  | rst x => exact absurd rfl (h x)

theorem rstLine_eq_false {s : State} {l : Line} (h : s.rstLine = false) (hl : s.currentLine = some l) :
    ∀ x, l ≠ .rst x := by
  rintro x rfl
  simp [State.rstLine, hl] at h

/-- A turn of the host that does not assert `rst` keeps the registers that no host access writes. -/
theorem hostCycle_keeps {s : State} (h : s.rstLine = false) : s.HostKeeps s.hostCycle := by
  unfold State.hostCycle State.hostTurn
  split
  · rename_i l hl
    rw [tick_currentLine] at hl
    exact (tick_keeps s).trans (runLine_keeps _ l (rstLine_eq_false h hl))
  · exact tick_keeps s

/-! ### While a command is pending -/

/-- What a turn of the host keeps while BUSY = 1: the pending command and all of the block but DROP (10_state.md R35,
R37). -/
structure State.BusyKeeps (s t : State) : Prop where
  pending : t.pending = s.pending
  block : s.SameBlock t

theorem State.SameBlock.refl (s : State) : s.SameBlock s := by constructor <;> rfl

theorem State.SameBlock.trans {s t u : State} (h : s.SameBlock t) (g : t.SameBlock u) : s.SameBlock u :=
  ⟨g.params.trans h.params, g.schedValid.trans h.schedValid, g.err.trans h.err, g.keylen.trans h.keylen,
   g.mlen.trans h.mlen, g.result.trans h.result, g.schedInfo.trans h.schedInfo, g.key.trans h.key,
   g.iv.trans h.iv, g.blk.trans h.blk, g.chain.trans h.chain, g.sched.trans h.sched, g.mbuf.trans h.mbuf,
   g.engine.trans h.engine, g.epoch.trans h.epoch⟩

theorem State.BusyKeeps.refl (s : State) : s.BusyKeeps s := ⟨rfl, .refl s⟩

theorem State.BusyKeeps.trans {s t u : State} (h : s.BusyKeeps t) (g : t.BusyKeeps u) : s.BusyKeeps u :=
  ⟨g.pending.trans h.pending, h.block.trans g.block⟩

theorem hostWrite_busyKeeps {s : State} (hb : s.busy = true) (woff : BitVec 19) (v : Word) :
    s.BusyKeeps (s.hostWrite woff v) := by
  simp only [State.hostWrite, hb, if_true, State.writeBusy]
  split <;> exact ⟨rfl, by constructor <;> rfl⟩

theorem hostRead_busyKeeps (s : State) (woff : BitVec 19) : s.BusyKeeps (s.hostRead woff) := by
  refine ⟨by simp [State.hostRead], ?_⟩
  constructor <;> simp [State.hostRead]

theorem advance_busyKeeps (s : State) : s.BusyKeeps s.advance := ⟨rfl, by constructor <;> rfl⟩

theorem goto_busyKeeps (s : State) (l : Nat) : s.BusyKeeps (s.goto l) := ⟨rfl, by constructor <;> rfl⟩

theorem assertRead_busyKeeps (s : State) (v : Word) : s.BusyKeeps (s.assertRead v) := ⟨rfl, by constructor <;> rfl⟩

theorem runLine_busyKeeps {s : State} (hb : s.busy = true) (l : Line) (h : ∀ x, l ≠ .rst x) :
    s.BusyKeeps (s.runLine l) := by
  cases l with
  | htx x =>
    cases x with
    | read woff => exact (hostRead_busyKeeps s woff).trans (advance_busyKeeps _)
    | write woff v => exact (hostWrite_busyKeeps hb woff v).trans (advance_busyKeeps _)
  | wait =>
    simp only [State.runLine]; split
    · exact hostRead_busyKeeps ..
    · exact (hostRead_busyKeeps ..).trans (advance_busyKeeps _)
  | expect woff v => exact ((hostRead_busyKeeps s woff).trans (assertRead_busyKeeps _ v)).trans (advance_busyKeeps _)
  | brerr c l =>
    simp only [State.runLine]; split
    · exact goto_busyKeeps ..
    · exact advance_busyKeeps _
  | brres v l =>
    simp only [State.runLine]; split
    · exact (hostRead_busyKeeps ..).trans (goto_busyKeeps ..)
    · exact (hostRead_busyKeeps ..).trans (advance_busyKeeps _)
  | jmp l => exact goto_busyKeeps ..
  | halt => exact .refl s
  | idle => exact advance_busyKeeps s
  | rst x => exact absurd rfl (h x)

/-- A turn of the host while a command is pending, without `rst`: one turn of its latency passes, and nothing else of
the block changes but DROP. -/
theorem hostCycle_pending {s : State} {w : Word} {n : Nat} (hp : s.pending = some ⟨w, n + 1⟩)
    (h : s.rstLine = false) : s.hostCycle.pending = some ⟨w, n⟩ ∧ s.SameBlock s.hostCycle := by
  have ht : s.tick.pending = some ⟨w, n⟩ := by simp [State.tick, hp]
  have hs : s.SameBlock s.tick := by constructor <;> simp
  unfold State.hostCycle State.hostTurn
  split
  · rename_i l hl
    rw [tick_currentLine] at hl
    have hk := runLine_busyKeeps (s := s.tick) (by simp [State.busy, ht]) l (rstLine_eq_false h hl)
    exact ⟨hk.pending.trans ht, hs.trans hk.block⟩
  · exact ⟨ht, hs⟩

/-- A turn in which `rst` is asserted. -/
theorem hostCycle_rst {s : State} {x : Option Htx} (h : s.currentLine = some (.rst x)) :
    s.hostCycle = (s.tick.resetTurn x).advance := by
  simp [State.hostCycle, State.hostTurn, h, State.runLine]

theorem rstLine_eq_true {s : State} : s.rstLine = true ↔ ∃ x, s.currentLine = some (.rst x) := by
  unfold State.rstLine
  split <;> simp_all

end Sys2Proof.Machine
end

