-- ==== Sys2Proof/Tests/Slice0.lean ====
section
/-! SUPPORT. Tests of the model: expected values are those of spec/95_test_vectors.md (V1 to V17) and of the encoding
tables of spec/30_encoding.md, and for each statement with hypotheses a witness that meets them. -/

namespace Sys2Proof.Tests

set_option Elab.async false

open Sys2Proof Sys2Proof.Machine

/-! ### Helpers -/

/-- Bytes written as one number, byte 0 first. -/
def bytesOf (n : Nat) (v : Nat) : List Byte :=
  (List.range n).map fun k => BitVec.ofNat 8 (v / 256 ^ (n - 1 - k))

/-- A block written as one number, byte 0 first. -/
def blockOf (v : Nat) : Block := Vector.ofFn fun k => BitVec.ofNat 8 (v / 256 ^ (15 - k.val))

/-- KEY with the n bytes of v, byte 0 first, and zeros after them. -/
def keyOf (n : Nat) (v : Nat) : Vector Byte 32 := Vector.ofFn fun k => (bytesOf n v).getD k.val 0

/-- MBUF with the given bytes from index 0 on. -/
def cellsOf (bs : List Byte) : List Host.Cell := Memory.writeBytes [] 0 bs

/-- The outcome is a next state that has the property. -/
def nextWith (o : Host.Outcome State Fault Refusal) (p : State → Bool) : Bool :=
  match o with
  | .next t => p t
  | .fault _ => false
  | .refused _ => false

theorem exists_of_nextWith {o : Host.Outcome State Fault Refusal} {p : State → Bool} (h : nextWith o p = true) :
    ∃ t, o = .next t ∧ p t = true := by
  cases o with
  | next t => exact ⟨t, rfl, h⟩
  | fault r => cases h
  | refused r => cases h

/-- The host is at the first line of a script. -/
def withScript (s : State) (ls : List Line) : State := { s with host := { s.host with script := ls, pos := 0 } }

/-- The command word w is pending, with n turns of its latency left. -/
def withPending (s : State) (w : Word) (n : Nat) : State := { s with pending := some ⟨w, n⟩ }

/-- A message in MBUF, and MLEN its length. -/
def withMessage (s : State) (bs : List Byte) : State :=
  { s with mbuf := cellsOf bs, mlen := BitVec.ofNat 32 bs.length }

/-- The AES-128 key of V2, V12 and E12. -/
def keyV2 : State := { State.reset with keylen := 16, key := keyOf 16 0x2b7e151628aed2a6abf7158809cf4f3c }

/-- V1's key expanded and stored. -/
def schedV1 : State := State.reset.loadSchedule .k128 (expand (bytesOf 16 0x000102030405060708090a0b0c0d0e0f))

/-- V2's key, IV and MLEN, with a block in MBUF. -/
def cbcV2 (block : Nat) : State :=
  { keyV2 with
    iv := blockOf 0x000102030405060708090a0b0c0d0e0f
    mlen := 16
    mbuf := cellsOf (bytesOf 16 block) }

/-! ### Decoding: R59's fields and R60's opcodes, written out bit by bit -/

theorem test_decode_keyexp : decodeCmdw 0b00000000000000000000000000000001 = .ok .keyexp := by decide
theorem test_decode_encblk : decodeCmdw 0b00000000000000000000000000000010 = .ok .encblk := by decide
theorem test_decode_decblk : decodeCmdw 0b00000000000000000000000000000011 = .ok .decblk := by decide
theorem test_decode_cbcenc : decodeCmdw 0b00000000000000000000000000000100 = .ok .cbcenc := by decide
theorem test_decode_cbcdec : decodeCmdw 0b00000000000000000000000000000101 = .ok .cbcdec := by decide
theorem test_decode_pad : decodeCmdw 0b00000000000000000000000000000110 = .ok .pad := by decide
theorem test_decode_padlen : decodeCmdw 0b00000000000000000000000000000111 = .ok .padlen := by decide
theorem test_decode_unpad : decodeCmdw 0b00000000000000000000000000001000 = .ok .unpad := by decide

/-- E17. -/
theorem test_decode_zero_illegal : decodeCmdw 0b00000000000000000000000000000000 = .error .opcodeZero := by decide

/-- E18, E19. -/
theorem test_decode_unassigned_illegal :
    decodeCmdw 0b00000000000000000000000000001001 = .error .opcodeUnassigned ∧
    decodeCmdw 0b00000000000000000000000011111111 = .error .opcodeUnassigned := by decide

/-- E20, E21. -/
theorem test_decode_rsv_illegal :
    decodeCmdw 0b00000000000000000000000100000001 = .error .reservedBitsSet ∧
    decodeCmdw 0b10000000000000000000000000000001 = .error .reservedBitsSet := by decide

/-! ### Well-formedness: an ill-formed term for each check -/

theorem test_wf_refuses_unaligned_offset : (Stmt.rd (.num 0x006)).wf = false := by decide
theorem test_wf_refuses_offset_past_port : (Stmt.wr (.num 0x200000) 0).wf = false := by decide
theorem test_wf_refuses_key_element : (Stmt.rd (.key 32)).wf = false := by decide
theorem test_wf_refuses_iv_element : (Stmt.rd (.iv 16)).wf = false := by decide
theorem test_wf_refuses_blk_element : (Stmt.rd (.blk 16)).wf = false := by decide
theorem test_wf_refuses_chain_element : (Stmt.expect (.chain 16) 0).wf = false := by decide
theorem test_wf_refuses_sched_element : (Stmt.rd (.sched 240)).wf = false := by decide
theorem test_wf_refuses_mbuf_element : (Stmt.rd (.mbuf 1048576)).wf = false := by decide
theorem test_wf_refuses_ldkey_part_word : (Stmt.ldkey (List.replicate 15 0)).wf = false := by decide
theorem test_wf_refuses_ldkey_too_long : (Stmt.ldkey (List.replicate 36 0)).wf = false := by decide
theorem test_wf_refuses_ldarr_part_word : (Stmt.ldarr (.blk 0) (List.replicate 6 0)).wf = false := by decide
theorem test_wf_refuses_ldarr_base : (Stmt.ldarr (.blk 2) (List.replicate 4 0)).wf = false := by decide
theorem test_wf_refuses_ldarr_past_port : (Stmt.ldarr (.num 0x1FFFFC) (List.replicate 8 0)).wf = false := by decide
theorem test_wf_refuses_ldmsg_too_long : (Stmt.ldmsg (List.replicate 1048577 0)).wf = false := by
  simp only [Stmt.wf, List.length_replicate]; decide
theorem test_wf_refuses_undefined_label : scriptWf [.jmp 1, .label 2] = false := by decide
theorem test_wf_refuses_label_defined_twice : scriptWf [.label 1, .brerr 0 1, .label 1] = false := by decide
theorem test_wf_accepts : scriptWf [.ldkey (List.replicate 16 0), .cmd .keyexp, .wait, .brerr 0 7, .halt, .label 7,
    .rd (.sched 4)] = true := by decide

/-! ### Tables and arithmetic: V13 and V14 -/

theorem test_xtime : xtime 0x57 = 0xae ∧ xtime 0x80 = 0x1b := by decide +kernel
theorem test_gmul : gmul 0x57 0x83 = 0xc1 ∧ gmul 0x57 0x13 = 0xfe ∧ gmul 0x80 0x0b = 0xf7 ∧ gmul 0xff 0x0e = 0x8d := by
  decide +kernel
theorem test_sbox : sbox 0x00 = 0x63 ∧ sbox 0x10 = 0xca ∧ sbox 0x53 = 0xed ∧ sbox 0xff = 0x16 ∧ invSbox 0xdd = 0xc9 := by
  decide +kernel
theorem test_shiftRows :
    shiftRows (blockOf 0x000102030405060708090a0b0c0d0e0f) = blockOf 0x00050a0f04090e03080d02070c01060b ∧
    invShiftRows (blockOf 0x000102030405060708090a0b0c0d0e0f) = blockOf 0x000d0a0704010e0b0805020f0c090603 := by
  decide +kernel
theorem test_mixColumns :
    mixColumns (blockOf 0xdb135345f20a225cd4d4d4d52d26314c) = blockOf 0x8e4da1bc9fdc589dd5d5d7d64d7ebdf8 := by
  decide +kernel
theorem test_invMixColumns :
    invMixColumns (blockOf 0x8e4da1bc9fdc589dd5d5d7d64d7ebdf8) = blockOf 0xdb135345f20a225cd4d4d4d52d26314c := by
  decide +kernel
theorem test_word_functions :
    subWord 0xcf4f3c09 = 0x8a84eb01 ∧ rotWord 0x09cf4f3c = 0xcf4f3c09 ∧ rotWord 0x00000001 = 0x00000100 := by
  decide +kernel

/-- V3: the last word of the AES-192 schedule. -/
theorem test_expand_192 :
    (expand (bytesOf 24 0x000102030405060708090a0b0c0d0e0f1011121314151617)).getD 51 0 = 0xe3a41d5d := by
  decide +kernel

/-- V4: the last word of the AES-256 schedule. -/
theorem test_expand_256 :
    (expand (bytesOf 32 0x000102030405060708090a0b0c0d0e0f101112131415161718191a1b1c1d1e1f)).getD 59 0 = 0x6d68de36 := by
  decide +kernel

/-! ### The commands: at most two tests each -/

/-- V1, V9. -/
theorem test_keyexp_v1 :
    nextWith (exec .keyexp { State.reset with keylen := 16, key := keyOf 16 0x000102030405060708090a0b0c0d0e0f })
      (fun t => t.sched[4] == 0xd6aa74fd && t.sched[43] == 0x4d2b30c5 && t.schedInfo == 0x002C0A04) = true := by
  decide +kernel

/-- E6: KEYLEN is not truncated. -/
theorem test_keyexp_e6 :
    nextWith (exec .keyexp { State.reset with keylen := 0x110 })
      (fun t => statusWord t == 0x00000200) = true := by decide +kernel

/-- V1. -/
theorem test_encblk_v1 :
    nextWith (exec .encblk { schedV1 with blk := blockOf 0x00112233445566778899aabbccddeeff })
      (fun t => t.blk == blockOf 0x69c4e0d86a7b0430d8cdb78070b4c55a) = true := by decide +kernel

/-- E1. -/
theorem test_encblk_e1 :
    nextWith (exec .encblk State.reset) (fun t => statusWord t == 0x00000400 && t.blk == State.reset.blk) = true := by
  decide +kernel

/-- V1. -/
theorem test_decblk_v1 :
    nextWith (exec .decblk { schedV1 with blk := blockOf 0x69c4e0d86a7b0430d8cdb78070b4c55a })
      (fun t => t.blk == blockOf 0x00112233445566778899aabbccddeeff) = true := by decide +kernel

/-- E2. -/
theorem test_decblk_e2 :
    nextWith (exec .decblk State.reset) (fun t => statusWord t == 0x00000400) = true := by decide +kernel

/-- V2. -/
theorem test_cbcenc_v2 :
    nextWith (exec .cbcenc (cbcV2 0x6bc1bee22e409f96e93d7e117393172a))
      (fun t => t.messageBlock 0 == blockOf 0x7649abac8119b246cee98e9b12e9197d &&
        t.chain == blockOf 0x7649abac8119b246cee98e9b12e9197d) = true := by decide +kernel

/-- E9: the key check comes before the alignment check. -/
theorem test_cbcenc_e9 :
    nextWith (exec .cbcenc { State.reset with keylen := 20, mlen := 17 })
      (fun t => statusWord t == 0x00000200) = true := by decide +kernel

/-- V2. -/
theorem test_cbcdec_v2 :
    nextWith (exec .cbcdec (cbcV2 0x7649abac8119b246cee98e9b12e9197d))
      (fun t => t.messageBlock 0 == blockOf 0x6bc1bee22e409f96e93d7e117393172a &&
        t.chain == blockOf 0x7649abac8119b246cee98e9b12e9197d) = true := by decide +kernel

/-- E10: the range check comes first. -/
theorem test_cbcdec_e10 :
    nextWith (exec .cbcdec { State.reset with keylen := 20, mlen := 4097 })
      (fun t => statusWord t == 0x00000500) = true := by decide +kernel

/-- V15: "hello". -/
theorem test_pad_hello :
    nextWith (exec .pad (withMessage State.reset (bytesOf 5 0x68656c6c6f)))
      (fun t => t.messageBlock 0 == blockOf 0x68656c6c6f0b0b0b0b0b0b0b0b0b0b0b && t.mlen == 16 && t.result == 11) =
      true := by decide +kernel

/-- E13. -/
theorem test_pad_e13 :
    nextWith (exec .pad { State.reset with mlen := 4096 }) (fun t => statusWord t == 0x00000600) = true := by
  decide +kernel

/-- V15: a last byte above MLEN. -/
theorem test_padlen_above_mlen :
    nextWith (exec .padlen (withMessage State.reset (bytesOf 3 0x000104))) (fun t => t.result == 0 && t.err == .ok) =
      true := by decide +kernel

/-- V15: only the last byte is checked. -/
theorem test_padlen_last_byte :
    nextWith (exec .padlen (withMessage State.reset (bytesOf 17 0x0702))) (fun t => t.result == 2) = true := by
  decide +kernel

/-- V15: "hello". -/
theorem test_unpad_hello :
    nextWith (exec .unpad (withMessage State.reset (bytesOf 16 0x68656c6c6f0b0b0b0b0b0b0b0b0b0b0b)))
      (fun t => t.mlen == 5 && t.result == 11 && t.mbufByte 15 == 0x0b) = true := by decide +kernel

/-- E16. -/
theorem test_unpad_e16 :
    nextWith (exec .unpad { State.reset with mlen := 5000 })
      (fun t => statusWord t == 0x00000500 && t.mlen == 5000) = true := by decide +kernel

/-! ### The port, the step and the host -/

/-- E20: an illegal word completes with ILLEGAL_CMD. -/
theorem test_step_illegal :
    nextWith (step (State.reset.withFetchWord 32 0x101)) (fun t => statusWord t == 0x00000100) = true := by
  decide +kernel

/-- The opcode table's UNPAD runs as the first command after reset (V15: UNPAD with MLEN = 0). -/
theorem test_step_unpad_after_reset :
    decodeTableWord 32 8 = some .unpad ∧
    nextWith (step (State.reset.withFetchWord 32 8)) (fun t => statusWord t == 0 && t.result == 0) = true := by
  decide +kernel

/-- Program P5, variant A: the write to BLK while KEYEXP is pending is dropped. -/
theorem test_busy_write_dropped :
    nextWith (step (withScript (withPending keyV2 1 1) [.htx (.write 0x014 0x00112233)]))
      (fun t => t.drop && t.blk == State.reset.blk && statusWord t == 0x00000005) = true := by decide +kernel

/-- E29, "any": a reserved offset reads 0 and a write to it sets nothing, while a command is pending too. -/
theorem test_reserved_while_busy :
    (withPending State.reset 1 1).readWord 0x01C = 0 ∧ (withPending State.reset 1 1).readWord 0x3FF = 0 ∧
    (withPending State.reset 1 1).hostWrite 0x07C 5 = withPending State.reset 1 1 := by decide +kernel

/-- E23: a CMD write while BUSY = 1 is not queued. -/
theorem test_busy_cmd_write_not_queued :
    nextWith (step (withScript (withPending State.reset 2 3) [.htx (.write 0x000 1)]))
      (fun t => t.drop && t.pending == some ⟨2, 2⟩) = true := by decide +kernel

/-- E25. -/
theorem test_status_write_clears_drop :
    nextWith (step (withScript { State.reset with drop := true } [.htx (.write 0x001 0x00000004)]))
      (fun t => !t.drop) = true := by decide +kernel

/-- E26, E27, E29, and D5's word order on KEY. -/
theorem test_idle_reads :
    State.reset.readWord 0x006 = 0x41455331 ∧ State.reset.readWord 0x007 = 0x00001000 ∧
    State.reset.readWord 0x040 = 0 ∧ State.reset.readWord 0x01C = 0 ∧ State.reset.readWord 0x3FF = 0 ∧
    keyV2.readWord 0x008 = 0x2b7e1516 := by decide +kernel

/-- A branch of an assembled script goes to the line after its label, counted in expanded lines. -/
theorem test_assemble :
    assemble [.wr .keylen 16, .label 5, .cmd .padlen, .wait, .brerr 5 5, .jmp 6, .rd .result, .label 6, .halt] =
      [.htx (.write 0x002 16), .htx (.write 0x000 7), .wait, .brerr 5 1, .jmp 6, .htx (.read 0x004), .halt] := by
  decide +kernel

/-- `ldmsg` pads its bytes to whole words (30_encoding.md R67). -/
theorem test_ldmsg :
    expandStmt (.ldmsg (bytesOf 5 0x68656c6c6f)) =
      [.htx (.write 0x400 0x68656c6c), .htx (.write 0x401 0x6f000000), .htx (.write 0x003 5)] := by decide +kernel

/-! ### Witnesses: for each statement with hypotheses, concrete data that meet them together

One for each clause, at a boundary of its range. -/

theorem witness_DecoderOnEveryWord :
    256 ≤ (256 : Word).toNat ∧ 256 ≤ (0xFFFFFFFF : Word).toNat ∧ (0 : Word).toNat = 0 ∧
    (9 ≤ (9 : Word).toNat ∧ (9 : Word).toNat < 256) ∧ (9 ≤ (255 : Word).toNat ∧ (255 : Word).toNat < 256) := by decide

theorem witness_EncodingsRoundTrip :
    Instr.keyexp.wf = true ∧ Instr.unpad.wf = true ∧
    (⟨0, 0x7FFFF, none⟩ : HtxWire).decode = some (.read 0x7FFFF) ∧
    (⟨1, 0, some 8⟩ : HtxWire).decode = some (.write 0 8) := by decide

/-- The first and last word of MBUF, the last of SCHED, and a word at an edge of a reserved range. -/
theorem witness_RegisterMapRoundTrip :
    decodeTarget Params.default 0x400 = .mbuf 0 ∧ decodeTarget Params.default 0x7FF = .mbuf 1023 ∧
    decodeTarget Params.default 0x07B = .sched 59 ∧
    targetWoff (.mbuf 1023) = some 0x7FF ∧ 4 * 1023 < Params.default.mbufSize := by decide +kernel

/-- Both edges of each reserved range of R32, and the registers beside them. -/
theorem witness_ReservedOffsetsExactly :
    decodeTarget Params.default 0x01B = .chain 3 ∧ decodeTarget Params.default 0x01C = .reserved ∧
    decodeTarget Params.default 0x03F = .reserved ∧ decodeTarget Params.default 0x040 = .sched 0 ∧
    decodeTarget Params.default 0x07C = .reserved ∧ decodeTarget Params.default 0x3FF = .reserved ∧
    decodeTarget Params.default 0x800 = .reserved ∧ decodeTarget Params.default 0x7FFFF = .reserved := by
  decide +kernel

theorem witness_StepRunsDecodedCommand_due :
    (withPending State.reset 1 0).pending = some ⟨1, 0⟩ ∧ decodeCmdw 1 = .ok .keyexp ∧ Instr.keyexp.wf = true := by
  decide +kernel

theorem witness_StepRunsDecodedCommand_waiting :
    (withPending State.reset 8 1).pending = some ⟨8, 0 + 1⟩ ∧ State.reset.pending = none := by decide +kernel

theorem witness_IllegalWordCompletes :
    (withPending State.reset 9 0).pending = some ⟨9, 0⟩ ∧ decodeCmdw 9 = .error .opcodeUnassigned := by decide +kernel

/-- An illegal word and a command, each with its clause's decoding. -/
theorem witness_AcceptedCommandCompletes :
    ((withPending State.reset 0 0).pending = some ⟨0, 0⟩ ∧ decodeCmdw 0 = .error .opcodeZero) ∧
    (withPending State.reset 8 1).pending = some ⟨8, 1⟩ ∧ decodeCmdw 8 = .ok .unpad ∧
    ∀ j, j < 1 → ∀ u, Sys2Proof.core.run j (withPending State.reset 8 1) = .next u → State.rstLine u = false := by
  refine ⟨by decide +kernel, rfl, by decide, fun j hj u hu => ?_⟩
  obtain rfl : j = 0 := by omega
  cases hu; rfl

theorem witness_OperandsHeldWhilePending :
    ∃ s t : State, s.pending = some ⟨1, 2⟩ ∧ 1 ≤ 2 ∧
      (∀ j, j < 1 → ∀ u, Sys2Proof.core.run j s = .next u → State.rstLine u = false) ∧
      Sys2Proof.core.run 1 s = .next t := by
  refine ⟨withScript (withPending State.reset 1 2) [.htx (.write 0x014 7)], _, rfl, by omega, fun j hj u hu => ?_, rfl⟩
  obtain rfl : j = 0 := by omega
  cases hu; rfl

/-- `rst` while a command is pending, with a read that the host issues meanwhile. -/
theorem witness_RstResetsTheBlock :
    (withScript (withPending State.reset 1 5) [.rst (some (.read 0x006))]).dueWord = none ∧
    (withScript (withPending State.reset 1 5) [.rst (some (.read 0x006))]).currentLine =
      some (.rst (some (.read 0x006))) := by decide +kernel

/-- The state right after reset with a command pending meets the invariant. -/
theorem pending_inv (w : Word) (n : Nat) : (withPending State.reset w n).Inv := by
  constructor <;> simp [withPending, State.reset, Engine.reset]

theorem witness_StepKeepsInvariant :
    (withPending State.reset 1 1).Inv ∧ ∃ t, step (withPending State.reset 1 1) = .next t :=
  ⟨pending_inv 1 1, _, rfl⟩

theorem witness_CmdWriteIsAccepted : State.reset.busy = false := by decide +kernel

theorem witness_BusyWritesAreDropped :
    (withPending State.reset 1 1).busy = true ∧ (0x000 : BitVec 19) ≠ 0x001 ∧ (0x01C : BitVec 19) ≠ 0x001 ∧
    decodeTarget (withPending State.reset 1 1).params 0x000 ≠ .reserved ∧
    decodeTarget (withPending State.reset 1 1).params 0x01C = .reserved := by decide +kernel

theorem witness_BusyReads :
    (withPending State.reset 1 1).Inv ∧ (withPending State.reset 1 1).busy = true ∧
    (0x000 : BitVec 19) ≠ 0x001 ∧ (0x000 : BitVec 19) ≠ 0x006 ∧ (0x000 : BitVec 19) ≠ 0x007 ∧
    decodeTarget (withPending State.reset 1 1).params 0x000 ≠ .reserved ∧
    decodeTarget (withPending State.reset 1 1).params 0x01C = .reserved :=
  ⟨pending_inv 1 1, rfl, by decide, by decide, by decide, by decide +kernel, by decide +kernel⟩

theorem witness_IdAndCapsAreConstant :
    State.reset.busy = false ∧ (withPending State.reset 1 1).busy = true := by decide +kernel

theorem witness_IdleReservedAndReadOnly :
    decodeTarget (withPending State.reset 1 1).params 0x01C = .reserved ∧ State.reset.busy = false ∧ decodeTarget State.reset.params 0x07C = .reserved ∧
    isRO (decodeTarget State.reset.params 0x004) = true ∧ isRO (decodeTarget State.reset.params 0x07B) = true := by
  decide +kernel

theorem witness_ByteArraysAreBigEndian :
    schedV1.busy = false ∧ 31 < 32 ∧ 15 < 16 ∧ 4095 < schedV1.params.mbufSize ∧ schedV1.schedValid = true ∧
    43 < infoNwords schedV1.schedInfo := by decide +kernel

theorem witness_ReadAfterWrite :
    State.reset.busy = false ∧ isRW (decodeTarget State.reset.params 0x002) = true ∧
    isRW (decodeTarget State.reset.params 0x7FF) = true ∧ (0x002 : BitVec 19) ≠ 0x7FF := by decide +kernel

/-- A state with a valid schedule meets the invariant. -/
theorem schedV1_inv : schedV1.Inv where
  mbuf_wf := by decide +kernel
  mbuf_bounded := by decide +kernel
  info_invalid := by decide +kernel
  schedule_valid := fun _ => ⟨.k128, bytesOf 16 0x000102030405060708090a0b0c0d0e0f, by decide, rfl, by decide +kernel⟩
  result_le := by decide +kernel
  busy_err := by decide +kernel
  rnd_le := by decide +kernel
  block_le := by decide +kernel

theorem witness_ScheduleReads :
    (schedV1.Inv ∧ schedV1.busy = false ∧ schedV1.schedValid = true) ∧
    State.reset.busy = false ∧ State.reset.schedValid = false :=
  ⟨⟨schedV1_inv, rfl, rfl⟩, rfl, rfl⟩

theorem witness_SchedValidClearedOnlyByReset :
    ∃ t, step (withScript schedV1 [.rst none]) = .next t ∧ schedV1.schedValid = true ∧ t.schedValid = false :=
  ⟨_, rfl, rfl, rfl⟩

theorem witness_DropSetAndClearedOnlySo :
    (∃ t, step (withScript (withPending State.reset 1 1) [.htx (.write 0x000 1)]) = .next t ∧ t.drop = true) ∧
    (∃ t, step (withScript { State.reset with drop := true } [.htx (.write 0x001 4)]) = .next t ∧ t.drop = false) :=
  ⟨⟨_, rfl, rfl⟩, _, rfl, rfl⟩

theorem witness_ScheduleChangesOnlyByExpansion :
    ∃ t, step (withPending keyV2 1 0) = .next t ∧ t.schedValid ≠ keyV2.schedValid := by
  obtain ⟨t, h, p⟩ := exists_of_nextWith (o := step (withPending keyV2 1 0)) (p := fun t => t.schedValid)
    (by decide +kernel)
  exact ⟨t, h, by rw [p]; decide⟩

theorem witness_CommandsLeaveOperandRegisters : ∃ t, exec .padlen State.reset = .next t := ⟨_, rfl⟩

/-- Each clause: BLK, CHAIN, RESULT and MLEN, the schedule, and a byte of MBUF change. -/
theorem witness_ResultsWrittenOnlyByTheirCommands :
    nextWith (exec .encblk { State.reset with schedValid := true }) (fun t => t.blk != State.reset.blk) = true ∧
    nextWith (exec .cbcenc { keyV2 with iv := blockOf 1 }) (fun t => t.chain != keyV2.chain && t.schedValid) = true ∧
    nextWith (exec .pad State.reset) (fun t => t.result != 0 && t.mlen != 0) = true ∧
    nextWith (exec .pad { State.reset with mbuf := [(0, 0)] }) (fun t => t.mbufByte 0 != 0) = true := by
  decide +kernel

theorem witness_ErrorsArePrecise : ∃ t, exec .encblk State.reset = .next t ∧ t.err ≠ .ok := by
  obtain ⟨t, h, p⟩ := exists_of_nextWith (o := exec .encblk State.reset) (p := fun t => t.err != .ok)
    (by decide +kernel)
  exact ⟨t, h, by simpa using p⟩

theorem witness_FirstApplicableCodeReported :
    (withPending State.reset 0 0).dueWord = some 0 ∧ decodeCmdw 0 = .error .opcodeZero ∧
    ∃ t, step (withPending State.reset 0 0) = .next t := ⟨rfl, rfl, _, rfl⟩

/-- A key of each length, and the first and last index of each clause. -/
theorem witness_ExpandFollowsItsRecurrence :
    (bytesOf 16 1).length = 16 ∧ (bytesOf 24 1).length = 24 ∧ (bytesOf 32 1).length = 32 ∧
    0 < 16 / 4 ∧ 7 < 32 / 4 ∧ (16 / 4 ≤ 4 ∧ 4 < 4 * (16 / 4 + 6 + 1)) ∧
    (32 / 4 ≤ 59 ∧ 59 < 4 * (32 / 4 + 6 + 1)) := by decide

theorem witness_KeyexpStoresTheSchedule :
    keyV2.keylen = BitVec.ofNat 32 (keyBytes .k128) ∧
    ({ State.reset with keylen := 24 } : State).keylen = BitVec.ofNat 32 (keyBytes .k192) ∧
    ({ State.reset with keylen := 32 } : State).keylen = BitVec.ofNat 32 (keyBytes .k256) := by decide +kernel

/-- Two keys that differ at KEY[16], the first byte that is not read. -/
theorem witness_KeyBytesBeyondLengthIgnored :
    ∃ t1 t2, keyV2.keylen = BitVec.ofNat 32 (keyBytes .k128) ∧
      (∀ j (h : j < 32), j < keyBytes .k128 → (keyV2.key.set 16 1)[j] = keyV2.key[j]) ∧
      exec .keyexp keyV2 = .next t1 ∧ exec .keyexp { keyV2 with key := keyV2.key.set 16 1 } = .next t2 := by
  obtain ⟨t1, h1, -⟩ := exists_of_nextWith (o := exec .keyexp keyV2) (p := fun _ => true) (by decide +kernel)
  obtain ⟨t2, h2, -⟩ := exists_of_nextWith (o := exec .keyexp { keyV2 with key := keyV2.key.set 16 1 })
    (p := fun _ => true) (by decide +kernel)
  refine ⟨t1, t2, by decide +kernel, fun j h hj => ?_, h1, h2⟩
  have : 16 ≠ j := by simp only [keyBytes] at hj; omega
  simp [this]

theorem witness_valid_schedule : schedV1.schedValid = true := rfl

theorem witness_EncblkDecblkRestoreBlk :
    schedV1.schedValid = true ∧ (∃ t, exec .encblk schedV1 = .next t) ∧ ∃ t, exec .decblk schedV1 = .next t := by
  obtain ⟨t1, h1, -⟩ := exists_of_nextWith (o := exec .encblk schedV1) (p := fun _ => true) (by decide +kernel)
  obtain ⟨t2, h2, -⟩ := exists_of_nextWith (o := exec .decblk schedV1) (p := fun _ => true) (by decide +kernel)
  exact ⟨rfl, ⟨t1, h1⟩, t2, h2⟩

/-- A legal key, and an empty message, one block and a full buffer. -/
theorem witness_CbcencChainsBlocks_CbcdecUnchainsBlocks :
    keyV2.keylen = BitVec.ofNat 32 (keyBytes .k128) ∧
    (keyV2.mlen.toNat ≤ keyV2.params.mbufSize ∧ keyV2.mlen.toNat % 16 = 0) ∧
    ((cbcV2 1).mlen.toNat ≤ (cbcV2 1).params.mbufSize ∧ (cbcV2 1).mlen.toNat % 16 = 0 ∧ 0 < (cbcV2 1).mlen.toNat / 16) ∧
    ((4096 : Word).toNat ≤ State.reset.params.mbufSize ∧ (4096 : Word).toNat % 16 = 0) := by decide +kernel

theorem witness_CbcFrame_CbcRoundTrip :
    ∃ t, (cbcV2 1).keylen = BitVec.ofNat 32 (keyBytes .k128) ∧ (cbcV2 1).mlen.toNat ≤ (cbcV2 1).params.mbufSize ∧
      (cbcV2 1).mlen.toNat % 16 = 0 ∧ exec .cbcenc (cbcV2 1) = .next t := by
  obtain ⟨t, h, -⟩ := exists_of_nextWith (o := exec .cbcenc (cbcV2 1)) (p := fun _ => true) (by decide +kernel)
  exact ⟨t, by decide +kernel, by decide +kernel, by decide +kernel, h⟩

/-- MLEN = MBUF_SIZE - 1, and an empty message. -/
theorem witness_PadAppendsPadBytes :
    ({ State.reset with mlen := 4095 } : State).mlen.toNat < State.reset.params.mbufSize ∧
    State.reset.mlen.toNat < State.reset.params.mbufSize := by decide +kernel

/-- MLEN = MBUF_SIZE - 1, MBUF_SIZE and MBUF_SIZE + 1: each clause of the statement. -/
theorem witness_PadErrorsExactly :
    nextWith (exec .pad { State.reset with mlen := 4095 }) (fun t => t.err == .ok) = true ∧
    nextWith (exec .pad { State.reset with mlen := 4096 }) (fun t => t.err == .bufferOverflow) = true ∧
    nextWith (exec .pad { State.reset with mlen := 4097 }) (fun t => t.err == .bufferRange) = true := by
  decide +kernel

/-- An empty message, and last bytes 0, 17, one above MLEN, 1, and 16 = MLEN: each clause. -/
theorem witness_PadlenReportsLastByte_UnpadTruncates :
    State.reset.mlen.toNat = 0 ∧
    ((withMessage State.reset [0]).mlen.toNat ≠ 0 ∧ ((withMessage State.reset [0]).mbufByte 0).toNat = 0) ∧
    ((withMessage State.reset (bytesOf 17 17)).mlen.toNat = 17 ∧
      16 < ((withMessage State.reset (bytesOf 17 17)).mbufByte 16).toNat) ∧
    (withMessage State.reset [2]).mlen.toNat < ((withMessage State.reset [2]).mbufByte 0).toNat ∧
    ((withMessage State.reset [1]).mbufByte 0).toNat = (withMessage State.reset [1]).mlen.toNat ∧
    ((withMessage State.reset (bytesOf 16 16)).mbufByte 15).toNat = (withMessage State.reset (bytesOf 16 16)).mlen.toNat := by
  decide +kernel

theorem witness_PadUnpadRoundTrip :
    ∃ t, (withMessage State.reset [1, 2]).mlen.toNat < (withMessage State.reset [1, 2]).params.mbufSize ∧
      exec .pad (withMessage State.reset [1, 2]) = .next t := by
  obtain ⟨t, h, -⟩ := exists_of_nextWith (o := exec .pad (withMessage State.reset [1, 2])) (p := fun _ => true)
    (by decide +kernel)
  exact ⟨t, by decide +kernel, h⟩

/-- Two messages that differ in a byte that is not the last. -/
theorem witness_OnlyLastByteInspected :
    (withMessage State.reset [9, 1]).params = (withMessage State.reset [8, 1]).params ∧
    (withMessage State.reset [9, 1]).mlen = (withMessage State.reset [8, 1]).mlen ∧
    (withMessage State.reset [9, 1]).result = (withMessage State.reset [8, 1]).result ∧
    (withMessage State.reset [9, 1]).mbufByte ((withMessage State.reset [8, 1]).mlen.toNat - 1) =
      (withMessage State.reset [8, 1]).mbufByte ((withMessage State.reset [8, 1]).mlen.toNat - 1) ∧
    nextWith (exec .unpad (withMessage State.reset [8, 1])) (fun _ => true) = true ∧
    nextWith (exec .unpad (withMessage State.reset [9, 1])) (fun _ => true) = true := by decide +kernel

theorem witness_NonStoringCommandsFrame : ∃ t, exec .unpad State.reset = .next t := ⟨_, rfl⟩

/-- Two buffers that differ at index MLEN, the first byte beyond the message. -/
theorem witness_BytesBeyondMessageIgnored :
    ∃ s1 s2 t1 t2 : State, s2 = { s1 with mbuf := s2.mbuf } ∧ s1.mbufByte 1 ≠ s2.mbufByte 1 ∧
      (∀ a, a < s1.mlen.toNat → s2.mbufByte a = s1.mbufByte a) ∧
      exec .padlen s1 = .next t1 ∧ exec .padlen s2 = .next t2 := by
  refine ⟨{ State.reset with mlen := 1, mbuf := [(0, 1), (1, 5)] }, { State.reset with mlen := 1, mbuf := [(0, 1), (1, 6)] },
    _, _, rfl, by decide +kernel, fun a ha => ?_, rfl, rfl⟩
  obtain rfl : a = 0 := by simpa using ha
  rfl

theorem witness_TransactionsAdvanceByOne :
    (withScript State.reset [.htx (.read 0x001)]).dueWord = none ∧
    (withScript State.reset [.htx (.read 0x001)]).currentLine = some (.htx (.read 0x001)) ∧
    (withScript State.reset [.htx (.write 0x002 16)]).currentLine = some (.htx (.write 0x002 16)) := by decide +kernel

theorem witness_WaitPollsUntilIdle :
    ((withScript State.reset [.wait]).dueWord = none ∧ (withScript State.reset [.wait]).currentLine = some .wait) ∧
    (withScript (withPending State.reset 1 1) [.wait]).dueWord = none ∧
    (withScript (withPending State.reset 1 1) [.wait]).busy = true := by decide +kernel

theorem witness_BranchesActOnTheHostOnly :
    ((withScript (withPending State.reset 1 1) [.brres 0 7]).dueWord = none ∧
      (withScript (withPending State.reset 1 1) [.brres 0 7]).busy = true ∧
      (withScript (withPending State.reset 1 1) [.brres 0 7]).currentLine = some (.brres 0 7)) ∧
    (withScript State.reset [.expect 0x001 0]).currentLine = some (.expect 0x001 0) ∧
    (withScript State.reset [.brerr 0 7]).dueWord = none ∧ (withScript State.reset [.brerr 0 7]).busy = false ∧
    (withScript State.reset [.brerr 0 7]).currentLine = some (.brerr 0 7) ∧
    (withScript State.reset [.jmp 7]).currentLine = some (.jmp 7) ∧
    (withScript State.reset [.halt]).currentLine = some .halt ∧
    (withScript State.reset [.brres 0 7]).currentLine = some (.brres 0 7) ∧
    (withScript State.reset [.expect 0x006 1]).currentLine = some (.expect 0x006 1) := by
  decide +kernel

/-- The longest key, a whole array, a message with a part word, and a branch to a label before and after it. -/
theorem witness_PseudoInstructionsExpand :
    ((Stmt.ldkey (bytesOf 32 1)).wf = true ∧ 7 < (bytesOf 32 1).length / 4) ∧
    ((Stmt.ldarr (.iv 0) (bytesOf 16 1)).wf = true ∧ 3 < (bytesOf 16 1).length / 4) ∧
    ((Stmt.ldmsg (bytesOf 5 1)).wf = true ∧ 1 < ((bytesOf 5 1).length + 3) / 4) ∧
    ([.label 1, .wait, .jmp 1] : List Stmt) = [.label 1, .wait] ++ .jmp 1 :: [] ∧
    ([.label 1, .wait, .jmp 1] : List Stmt) = [] ++ .label 1 :: [.wait, .jmp 1] ∧
    ([.jmp 1, .wait, .label 1] : List Stmt) = [.jmp 1, .wait] ++ .label 1 :: [] ∧
    Stmt.label 1 ∉ ([.jmp 1, .wait] : List Stmt) := by decide +kernel

end Sys2Proof.Tests
end

section
/-! PROOFS. The register map and the accesses of the host port (10_state.md R15 to R38). -/

namespace Sys2Proof.Machine

/-! ### The register map -/

/-- A register's own word offset, from what its row says of the word offset that selects it. -/
theorem targetWoff_of_says {p : Params} {woff : BitVec 19} {t : Target} (h : targetSays p woff.toNat t)
    (hr : t ≠ .reserved) : targetWoff t = some woff := by
  have hm := (mbufSize_bounds p).2.2
  cases t with
  | reserved => exact absurd rfl hr
  | _ =>
    simp only [targetSays] at h
    refine congrArg some (BitVec.eq_of_toNat_eq ?_)
    simp only [BitVec.ofNat_eq_ofNat, BitVec.toNat_ofNat]
    omega

/-- What a register's row says of its own word offset; MBUF's word must lie inside the buffer. -/
theorem targetSays_of_woff {p : Params} {woff : BitVec 19} {t : Target} (h : targetWoff t = some woff)
    (hm : ∀ q, t = .mbuf q → 4 * q < p.mbufSize) : targetSays p woff.toNat t := by
  have hp := (mbufSize_bounds p).2.2
  cases t with
  | mbuf q =>
    have hq := hm q rfl
    obtain rfl := Option.some.inj h
    simp only [targetSays, BitVec.toNat_ofNat]
    omega
  | reserved => cases h
  | key _ | iv _ | blk _ | chain _ | sched _ =>
    obtain rfl := Option.some.inj h
    simp only [targetSays, BitVec.toNat_ofNat]
    omega
  | _ =>
    obtain rfl := Option.some.inj h
    rfl

/-- Settles O4: each row of the register map says which word offset selects it. -/
theorem registerMapRoundTrip : Obligations.RegisterMapRoundTrip := by
  unfold Obligations.RegisterMapRoundTrip
  exact ⟨fun p woff hr => targetWoff_of_says (decodeTarget_says p woff) hr,
    fun p t woff h hm => decodeTarget_eq (targetSays_of_woff h hm)⟩

/-- Settles O5: the reserved row says exactly the three ranges of R32, counted in words. -/
theorem reservedOffsetsExactly : Obligations.ReservedOffsetsExactly := by
  unfold Obligations.ReservedOffsetsExactly
  intro p woff
  have ha : p.aperture = 0x1000 + p.mbufSize := rfl
  constructor
  · intro h
    have hs := decodeTarget_says p woff
    rw [h] at hs
    simp only [targetSays] at hs
    omega
  · intro h
    refine decodeTarget_eq ?_
    simp only [targetSays]
    omega

@[simp] theorem decodeTarget_cmd (p : Params) : decodeTarget p 0x000#19 = .cmd := rfl
@[simp] theorem decodeTarget_status (p : Params) : decodeTarget p 0x001#19 = .status := rfl
@[simp] theorem decodeTarget_id (p : Params) : decodeTarget p 0x006#19 = .id := rfl
@[simp] theorem decodeTarget_caps (p : Params) : decodeTarget p 0x007#19 = .caps := rfl

/-- Only the word offset of STATUS selects STATUS. -/
theorem decodeTarget_eq_status {p : Params} {woff : BitVec 19} : decodeTarget p woff = .status ↔ woff = 0x001 :=
  ⟨fun h => decodeTarget_inj (h.trans (decodeTarget_status p).symm) (by simp [h]), fun h => by simp [h]⟩

/-- The registers other than STATUS, ID and CAPS are those whose read while BUSY = 1 is not defined (R38). -/
theorem definedWhileBusy_eq_false {p : Params} {woff : BitVec 19} (h1 : woff ≠ 0x001) (h6 : woff ≠ 0x006)
    (h7 : woff ≠ 0x007) (hr : decodeTarget p woff ≠ .reserved) : definedWhileBusy (decodeTarget p woff) = false := by
  have hid : decodeTarget p woff ≠ .id := fun h =>
    h6 (decodeTarget_inj (h.trans (decodeTarget_id p).symm) hr)
  have hcaps : decodeTarget p woff ≠ .caps := fun h =>
    h7 (decodeTarget_inj (h.trans (decodeTarget_caps p).symm) hr)
  have hst : decodeTarget p woff ≠ .status := mt decodeTarget_eq_status.1 h1
  generalize decodeTarget p woff = t at hr hid hcaps hst
  cases t with
  | status => exact absurd rfl hst
  | id => exact absurd rfl hid
  | caps => exact absurd rfl hcaps
  | reserved => exact absurd rfl hr
  | _ => rfl

/-! ### Reads -/

/-- Where a read is defined while BUSY = 1, it gives the register's word in every state (R38). -/
theorem readWord_of_defined {s : State} {woff : BitVec 19}
    (h : definedWhileBusy (decodeTarget s.params woff) = true) :
    s.readWord woff = s.registerWord (decodeTarget s.params woff) := by
  simp [State.readWord, State.readIsDraw, h]

/-- Where a read is defined while BUSY = 1, it draws nothing (R48). -/
theorem afterRead_of_defined {s : State} {woff : BitVec 19}
    (h : definedWhileBusy (decodeTarget s.params woff) = true) : s.afterRead woff = s := by
  simp [State.afterRead, State.readIsDraw, h]

/-- A read while BUSY = 1 that is not defined is a draw (R38). -/
theorem readWord_of_draw {s : State} {woff : BitVec 19} (hb : s.busy = true)
    (h : definedWhileBusy (decodeTarget s.params woff) = false) :
    s.readWord woff = Config.busyRead s.draws ∧ s.afterRead woff = { s with draws := s.draws + 1 } := by
  simp [State.readWord, State.afterRead, State.readIsDraw, h, hb]

/-- Only the count of draws can move in a read. -/
theorem afterRead_eq (s : State) (woff : BitVec 19) :
    s.afterRead woff = { s with draws := (s.afterRead woff).draws } := by
  unfold State.afterRead
  split <;> rfl

/-- The count of draws moves by one in a read that draws, and in no other. -/
theorem afterRead_draws (s : State) (woff : BitVec 19) :
    (s.afterRead woff).draws = if s.readIsDraw woff then s.draws + 1 else s.draws := by
  unfold State.afterRead
  split <;> rfl

@[simp] theorem readWord_id (s : State) : s.readWord 0x006 = 0x41455331 :=
  readWord_of_defined (by simp [definedWhileBusy])

@[simp] theorem readWord_caps (s : State) : s.readWord 0x007 = BitVec.ofNat 32 s.params.mbufSize :=
  readWord_of_defined (by simp [definedWhileBusy])

/-! ### Writes -/

theorem hostWrite_of_busy {s : State} (h : s.busy = true) (woff : BitVec 19) (v : Word) :
    s.hostWrite woff v = s.writeBusy (decodeTarget s.params woff) v := by
  simp [State.hostWrite, h]

/-- A write while BUSY = 1 to a register other than STATUS is dropped (R37). -/
theorem writeBusy_of_register {s : State} {t : Target} (v : Word) (hs : t ≠ .status) (hr : t ≠ .reserved) :
    s.writeBusy t v = s.dropWrite := by
  cases t with
  | status => exact absurd rfl hs
  | reserved => exact absurd rfl hr
  | _ => rfl

/-- A write to STATUS does the same busy or idle (R20). -/
theorem hostWrite_status (s : State) (v : Word) : s.hostWrite 0x001 v = s.writeStatus v := by
  unfold State.hostWrite
  split <;> simp [State.writeBusy, State.writeIdle]

/-- A write to a reserved offset changes nothing, busy or idle (R32, R49). -/
theorem hostWrite_reserved {s : State} {woff : BitVec 19} (h : decodeTarget s.params woff = .reserved) (v : Word) :
    s.hostWrite woff v = s := by
  unfold State.hostWrite
  split <;> simp [State.writeBusy, State.writeIdle, h]

/-- A write to a read-only register is ignored while BUSY = 0 (R49). -/
theorem writeIdle_of_isRO {s : State} {t : Target} (h : isRO t = true) (v : Word) : s.writeIdle t v = s := by
  cases t with
  | result | schedInfo | id | caps | chain _ | sched _ => rfl
  | _ => cases h

/-- DROP after a host write: a STATUS write can clear it, and a write to another register sets it while BUSY = 1. -/
theorem hostWrite_drop (s : State) (woff : BitVec 19) (v : Word) :
    (s.hostWrite woff v).drop =
      if decodeTarget s.params woff = .status then s.drop && !clearsDrop v
      else s.drop || (s.busy && decodeTarget s.params woff != .reserved) := by
  generalize ht : decodeTarget s.params woff = t
  cases hb : s.busy with
  | false => rw [hostWrite_of_idle hb, ht]; cases t <;> simp [State.writeIdle]
  | true => rw [hostWrite_of_busy hb, ht]; cases t <;> simp [State.writeBusy]

@[simp] theorem hostWrite_host (s : State) (woff : BitVec 19) (v : Word) : (s.hostWrite woff v).host = s.host := by
  unfold State.hostWrite
  generalize decodeTarget s.params woff = t
  split
  · cases t <;> simp [State.writeBusy]
  · cases t <;> simp [State.writeIdle]

/-- Settles O15: the row at word offset 0 is CMD, whose idle write is an acceptance. -/
theorem cmdWriteIsAccepted : Obligations.CmdWriteIsAccepted := by
  unfold Obligations.CmdWriteIsAccepted
  intro s v hb
  have h : s.hostWrite 0x000 v = s.accept v := by simp [hostWrite_of_idle hb, State.writeIdle]
  exact ⟨h, by rw [h, State.accept_busy]⟩

/-- Settles O16: the write is `dropWrite` on a register's row, and nothing on the reserved row. -/
theorem busyWritesAreDropped : Obligations.BusyWritesAreDropped := by
  unfold Obligations.BusyWritesAreDropped
  intro s woff v hb h1
  refine ⟨fun hr => ?_, fun hr => hostWrite_reserved hr v⟩
  rw [hostWrite_of_busy hb, writeBusy_of_register v (mt decodeTarget_eq_status.1 h1) hr]
  rfl

/-- Settles O17: STATUS is a concatenation of its fields, so each bit is read off at its place. -/
theorem statusFieldsAndWrite : Obligations.StatusFieldsAndWrite := by
  unfold Obligations.StatusFieldsAndWrite
  intro s v
  refine ⟨readWord_status s, ?_, ?_, ?_, ?_, ?_, hostWrite_status s v⟩
  · simp only [statusWord, BitVec.getLsbD_append]; simp
  · simp only [statusWord, BitVec.getLsbD_append]; simp
  · simp only [statusWord, BitVec.getLsbD_append]; simp
  · generalize he : errNumber s.err = e
    ext k hk
    simp only [statusWord, he, BitVec.getElem_extractLsb', BitVec.getLsbD_append]
    interval_cases k <;> simp
  · rintro k (⟨h3, h7⟩ | ⟨h12, h31⟩)
    · simp only [statusWord, BitVec.getLsbD_append]
      interval_cases k <;> simp
    · simp only [statusWord, BitVec.getLsbD_append]
      interval_cases k <;> simp

/-- Settles O18: each read while BUSY = 1 is defined or a draw; ERR = 0 in STATUS is the invariant's. -/
theorem busyReads : Obligations.BusyReads := by
  unfold Obligations.BusyReads
  intro s hinv hb
  refine ⟨?_, readWord_id s, readWord_caps s, ?_, fun woff hr => ⟨?_, ?_⟩, fun woff h1 h6 h7 hr => ?_⟩
  · have hw : s.readWord 0x001 = statusWord s := readWord_status s
    rw [hw, statusWord, hinv.busy_err hb, hb]
    rfl
  · rintro woff (rfl | rfl | rfl) <;> exact afterRead_of_defined (by simp [definedWhileBusy])
  · rw [readWord_of_defined (by simp [hr, definedWhileBusy]), hr]; rfl
  · exact afterRead_of_defined (by simp [hr, definedWhileBusy])
  · exact readWord_of_draw hb (definedWhileBusy_eq_false h1 h6 h7 hr)

/-- Settles O19: the rows of ID and CAPS are defined while BUSY = 1 and read-only. -/
theorem idAndCapsAreConstant : Obligations.IdAndCapsAreConstant := by
  unfold Obligations.IdAndCapsAreConstant
  intro s
  have hm := mbufSize_bounds s.params
  refine ⟨readWord_id s, ?_, fun v hb => ?_, fun v hb => ?_, hm⟩
  · rw [readWord_caps, BitVec.toNat_ofNat]
    omega
  · simp [hostWrite_of_idle hb, State.writeIdle]
  · simp [hostWrite_of_busy hb, State.writeBusy, State.dropWrite]

/-- Settles O20: by the reserved row in every state, and by the read-only rows of an idle block. -/
theorem idleReservedAndReadOnly : Obligations.IdleReservedAndReadOnly := by
  unfold Obligations.IdleReservedAndReadOnly
  intro s woff v
  refine ⟨fun hr => ⟨?_, ?_, hostWrite_reserved hr v⟩, fun hb => ⟨afterRead_of_idle hb woff, ?_, fun h => ?_⟩⟩
  · rw [readWord_of_defined (by simp [hr, definedWhileBusy]), hr]; rfl
  · exact afterRead_of_defined (by simp [hr, definedWhileBusy])
  · rw [readWord_of_idle hb]; rfl
  · rw [hostWrite_of_idle hb, writeIdle_of_isRO h]

/-! ### Byte order and the schedule at the port -/

/-- The byte of MBUF that the port word q shows at byte r (R44). -/
theorem wordByte_mbufWord (s : State) (q r : Nat) (hr : r < 4) :
    wordByte (s.mbufWord q) r = s.mbufByte (4 * q + r) := by
  obtain ⟨h0, h1, h2, h3⟩ := wordByte_be32 (s.mbufByte (4 * q)) (s.mbufByte (4 * q + 1)) (s.mbufByte (4 * q + 2))
    (s.mbufByte (4 * q + 3))
  unfold State.mbufWord
  interval_cases r
  · exact h0
  · exact h1
  · exact h2
  · exact h3

/-- Byte j of an array in the word j / 4 of its port (R16). -/
theorem wordByte_arrayWord_div {n : Nat} (a : Vector Byte n) (j : Nat) (hj : j < n) (h : 4 * (j / 4) + 3 < n) :
    wordByte (arrayWord a (j / 4) h) (j % 4) = a[j] := by
  rw [wordByte_arrayWord a _ _ h (by omega)]
  congr 1
  omega

/-- The word that an idle read gives at a word offset, from what a row says of it. -/
theorem readWord_of_says {s : State} (hb : s.busy = false) {woff : BitVec 19} {t : Target}
    (h : targetSays s.params woff.toNat t) : s.readWord woff = s.registerWord t := by
  rw [readWord_of_idle hb, decodeTarget_eq h]

/-- An idle read of SCHED[i] gives what R31 shows. -/
theorem readWord_sched {s : State} (hb : s.busy = false) (i : Fin 60) :
    s.readWord (BitVec.ofNat 19 (0x040 + i.val)) = schedRead s i := by
  refine readWord_of_says hb (t := .sched i) ?_
  simp only [targetSays, BitVec.toNat_ofNat]
  omega

/-- Settles O21: the row at base + j / 4 is the array's word, whose byte j mod 4 is the array's byte j. -/
theorem byteArraysAreBigEndian : Obligations.ByteArraysAreBigEndian := by
  unfold Obligations.ByteArraysAreBigEndian
  intro s hb
  have hm := (mbufSize_bounds s.params).2.2
  refine ⟨fun j h => ?_, fun j h => ?_, fun j h => ?_, fun j h => ?_, fun j h => ?_, fun i h hv hi => ?_⟩
  · rw [readWord_of_says hb (t := .key ⟨j / 4, by omega⟩) (by simp only [targetSays, BitVec.toNat_ofNat]; omega)]
    exact wordByte_arrayWord_div s.key j h _
  · rw [readWord_of_says hb (t := .iv ⟨j / 4, by omega⟩) (by simp only [targetSays, BitVec.toNat_ofNat]; omega)]
    exact wordByte_arrayWord_div s.iv j h _
  · rw [readWord_of_says hb (t := .blk ⟨j / 4, by omega⟩) (by simp only [targetSays, BitVec.toNat_ofNat]; omega)]
    exact wordByte_arrayWord_div s.blk j h _
  · rw [readWord_of_says hb (t := .chain ⟨j / 4, by omega⟩) (by simp only [targetSays, BitVec.toNat_ofNat]; omega)]
    exact wordByte_arrayWord_div s.chain j h _
  · rw [readWord_of_says hb (t := .mbuf (j / 4)) (by simp only [targetSays, BitVec.toNat_ofNat]; omega)]
    refine (wordByte_mbufWord s (j / 4) (j % 4) (by omega)).trans ?_
    congr 1
    omega
  · rw [readWord_sched hb ⟨i, h⟩, schedRead, if_pos ⟨hv, hi⟩]

/-- The three words that SCHED_INFO of a schedule can be (R24). -/
theorem schedInfoWord_of_keySize (ks : KeySize) :
    schedInfoWord (keyNk ks) (keyNr ks) (keyNwords ks) = 0x002C0A04 ∨
    schedInfoWord (keyNk ks) (keyNr ks) (keyNwords ks) = 0x00340C06 ∨
    schedInfoWord (keyNk ks) (keyNr ks) (keyNwords ks) = 0x003C0E08 := by
  cases ks with
  | k128 => exact .inl rfl
  | k192 => exact .inr (.inl rfl)
  | k256 => exact .inr (.inr rfl)

/-- Settles O23: SCHED_INFO is the word of the key size of the schedule that the invariant gives. -/
theorem scheduleReads : Obligations.ScheduleReads := by
  unfold Obligations.ScheduleReads
  intro s hinv hb
  have hinfo : s.readWord 0x005 = schedInfoRead s := by rw [readWord_of_idle hb]; rfl
  refine ⟨fun hv => ?_, fun hv => ⟨?_, ?_⟩, fun i h => readWord_sched hb ⟨i, h⟩⟩
  · rw [hinfo, schedInfoRead, hv]; rfl
  · rw [hinfo, schedInfoRead, if_pos hv]
  · obtain ⟨ks, k, _, hks, _⟩ := hinv.schedule_valid hv
    rw [hks]
    exact schedInfoWord_of_keySize ks

end Sys2Proof.Machine
end

section
/-! PROOFS. What the commands write and what they leave alone (10_state.md R17 to R31), and that each of them
completes. -/

namespace Sys2Proof.Machine

/-! ### The fields that a command writes -/

/-- The state `s` with the fields that the command `i` may write taken from `t`, besides ERR and BUSY, which every
command writes (10_state.md R17, R22, R23, R29 to R31; 60_exceptions.md R105). -/
def State.withWritesOf (s t : State) : Instr → State
  | .keyexp => { s with sched := t.sched, schedInfo := t.schedInfo, schedValid := t.schedValid }
  | .encblk => { s with blk := t.blk, engine := t.engine }
  | .decblk => { s with blk := t.blk, engine := t.engine }
  | .cbcenc => { s with
      sched := t.sched, schedInfo := t.schedInfo, schedValid := t.schedValid
      chain := t.chain, mbuf := t.mbuf, engine := t.engine }
  | .cbcdec => { s with
      sched := t.sched, schedInfo := t.schedInfo, schedValid := t.schedValid
      chain := t.chain, mbuf := t.mbuf, engine := t.engine }
  | .pad => { s with mlen := t.mlen, result := t.result, mbuf := t.mbuf }
  | .padlen => { s with result := t.result }
  | .unpad => { s with mlen := t.mlen, result := t.result }

/-- A command that ends with an error writes none of its fields. -/
theorem withWritesOf_raiseError (s : State) (c : ErrCode) (i : Instr) :
    s.raiseError c = { s.withWritesOf (s.raiseError c) i with pending := none, err := c } := by
  cases i <;> rfl

/-- The fields that a CBC command's run writes: those of the schedule at its start, and those of its loop. -/
theorem withWritesOf_cbcKeeps {s t : State} {ks : KeySize} {w : List Word} {i : Instr}
    (h : (s.cbcStart ks w).CbcKeeps t) (hi : i = .cbcenc ∨ i = .cbcdec) :
    t.complete = { s.withWritesOf t.complete i with pending := none, err := t.complete.err } := by
  rw [h.eq]
  rcases hi with rfl | rfl <;> rfl

/-- THE FRAME OF EVERY COMMAND: it ends BUSY, sets ERR, and writes its own fields alone. -/
theorem exec_frame {i : Instr} {s t : State} (h : exec i s = .next t) :
    t = { s.withWritesOf t i with pending := none, err := t.err } := by
  cases i with
  | keyexp =>
    obtain ⟨-, rfl⟩ | ⟨ks, -, rfl⟩ := execKeyexp_cases h
    · exact withWritesOf_raiseError ..
    · rfl
  | encblk =>
    obtain ⟨-, rfl⟩ | ⟨-, rfl⟩ := execEncblk_cases h
    · exact withWritesOf_raiseError ..
    · rfl
  | decblk =>
    obtain ⟨-, rfl⟩ | ⟨-, rfl⟩ := execDecblk_cases h
    · exact withWritesOf_raiseError ..
    · rfl
  | cbcenc =>
    obtain ⟨c, -, rfl⟩ | ⟨ks, n, -, rfl⟩ := execCbcenc_cases h
    · exact withWritesOf_raiseError ..
    · exact withWritesOf_cbcKeeps (cbcEncLoop_keeps ..) (.inl rfl)
  | cbcdec =>
    obtain ⟨c, -, rfl⟩ | ⟨ks, n, -, rfl⟩ := execCbcdec_cases h
    · exact withWritesOf_raiseError ..
    · exact withWritesOf_cbcKeeps (cbcDecLoop_keeps ..) (.inr rfl)
  | pad =>
    obtain ⟨-, rfl⟩ | ⟨-, -, rfl⟩ | ⟨-, rfl⟩ := execPad_cases h
    · exact withWritesOf_raiseError ..
    · exact withWritesOf_raiseError ..
    · rfl
  | padlen =>
    obtain ⟨-, rfl⟩ | ⟨-, rfl⟩ := execPadlen_cases h
    · exact withWritesOf_raiseError ..
    · rfl
  | unpad =>
    obtain ⟨-, rfl⟩ | ⟨-, rfl⟩ := execUnpad_cases h
    · exact withWritesOf_raiseError ..
    · rfl

/-- Settles O27: none of these fields is among those that a command writes. -/
theorem commandsLeaveOperandRegisters : Obligations.CommandsLeaveOperandRegisters := by
  unfold Obligations.CommandsLeaveOperandRegisters
  intro i s t h
  rw [exec_frame h]
  cases i <;> exact ⟨rfl, rfl, rfl, rfl, rfl, rfl, rfl, rfl, rfl, rfl⟩

/-- Settles O28: for a command that does not name a field, the frame keeps it. -/
theorem resultsWrittenOnlyByTheirCommands : Obligations.ResultsWrittenOnlyByTheirCommands := by
  unfold Obligations.ResultsWrittenOnlyByTheirCommands
  intro i s t h
  have hf := exec_frame h
  refine ⟨fun hne => ?_, fun hne => ?_, fun hne => ?_, fun hne => ?_, fun hne => ?_, fun a hne => ?_⟩
  · cases i with
    | encblk | decblk => simp
    | _ => exact absurd (congrArg State.blk hf) hne
  · cases i with
    | cbcenc | cbcdec => simp
    | _ => exact absurd (congrArg State.chain hf) hne
  · cases i with
    | pad | padlen | unpad => simp
    | _ => exact absurd (congrArg State.result hf) hne
  · cases i with
    | pad | unpad => simp
    | _ => exact absurd (congrArg State.mlen hf) hne
  · have hs := congrArg State.sched hf
    have hi := congrArg State.schedInfo hf
    have hv := congrArg State.schedValid hf
    cases i with
    | keyexp | cbcenc | cbcdec => simp
    | _ => exact absurd hne (by simp [hs, hi, hv, State.withWritesOf])
  · have hm := congrArg State.mbuf hf
    cases i with
    | cbcenc | cbcdec | pad => simp
    | _ => exact absurd (State.mbufByte_congr hm a) hne

/-- No command clears SCHED_VALID (10_state.md R33): the key expansions set it. -/
theorem exec_schedValid {i : Instr} {s t : State} (h : exec i s = .next t) (hv : s.schedValid = true) :
    t.schedValid = true := by
  cases i with
  | keyexp =>
    obtain ⟨-, rfl⟩ | ⟨ks, -, rfl⟩ := execKeyexp_cases h
    · exact hv
    · rfl
  | cbcenc =>
    obtain ⟨c, -, rfl⟩ | ⟨ks, n, -, rfl⟩ := execCbcenc_cases h
    · exact hv
    · exact congrArg State.schedValid (cbcEncLoop_keeps ..).eq
  | cbcdec =>
    obtain ⟨c, -, rfl⟩ | ⟨ks, n, -, rfl⟩ := execCbcdec_cases h
    · exact hv
    · exact congrArg State.schedValid (cbcDecLoop_keeps ..).eq
  | _ => exact (congrArg State.schedValid (exec_frame h)).trans hv

/-- Every command completes: no arm faults or refuses (60_exceptions.md R110). -/
theorem exec_completes (i : Instr) (s : State) : ∃ t, exec i s = .next t := by
  cases i with
  | keyexp => simp only [exec, execKeyexp]; split <;> exact ⟨_, rfl⟩
  | encblk => simp only [exec, execEncblk]; split <;> exact ⟨_, rfl⟩
  | decblk => simp only [exec, execDecblk]; split <;> exact ⟨_, rfl⟩
  | cbcenc => simp only [exec, execCbcenc]; split <;> exact ⟨_, rfl⟩
  | cbcdec => simp only [exec, execCbcdec]; split <;> exact ⟨_, rfl⟩
  | padlen => simp only [exec, execPadlen]; split <;> exact ⟨_, rfl⟩
  | unpad => simp only [exec, execUnpad]; split <;> exact ⟨_, rfl⟩
  | pad =>
    simp only [exec, execPad]
    split
    · exact ⟨_, rfl⟩
    · split <;> exact ⟨_, rfl⟩

/-! ### The key expansion -/

/-- `Expand(K)` of a key of one of the three lengths has the words that SCHED_INFO says (40_key_schedule.md R72). -/
theorem expand_length {k : List Byte} {ks : KeySize} (h : k.length = keyBytes ks) :
    (expand k).length = keyNwords ks := by
  rw [expand, expandLoop_length, wordsOf_length, h]
  cases ks <;> rfl

theorem keyOperand_length (s : State) (ks : KeySize) : (s.keyOperand ks).length = keyBytes ks := by
  rw [State.keyOperand, List.length_take, Vector.length_toList]
  cases ks <;> rfl

/-- The key operand depends on the first L bytes of KEY alone (10_state.md R27). -/
theorem keyOperand_congr {s t : State} {ks : KeySize}
    (h : ∀ j (hj : j < 32), j < keyBytes ks → t.key[j] = s.key[j]) : t.keyOperand ks = s.keyOperand ks := by
  refine List.ext_getElem (by simp only [keyOperand_length]) fun j hj _ => ?_
  rw [keyOperand_length] at hj
  have hL : keyBytes ks ≤ 32 := by cases ks <;> decide
  simpa [State.keyOperand] using h j (by omega) hj

/-- What KEYEXP with a legal KEYLEN stores (40_key_schedule.md R74). -/
theorem execKeyexp_stores {s t : State} {ks : KeySize} (hk : s.keylen = BitVec.ofNat 32 (keyBytes ks))
    (h : exec .keyexp s = .next t) : t = (s.loadSchedule ks (expand (s.keyOperand ks))).complete := by
  obtain ⟨hn, -⟩ | ⟨ks', hs, rfl⟩ := execKeyexp_cases h
  · simp [hk] at hn
  · obtain rfl : ks = ks' := by simpa [hk] using hs
    rfl

/-- Settles O37: both states store the expansion of the same key operand, which reaches every word below NWORDS. -/
theorem keyBytesBeyondLengthIgnored : Obligations.KeyBytesBeyondLengthIgnored := by
  unfold Obligations.KeyBytesBeyondLengthIgnored
  intro s1 s2 t1 t2 ks hk1 hk2 hkey h1 h2
  obtain rfl := execKeyexp_stores hk1 h1
  obtain rfl := execKeyexp_stores (hk2.trans hk1) h2
  refine ⟨rfl, fun i h hi => ?_⟩
  have hlen : i < (expand (s1.keyOperand ks)).length := by rwa [expand_length (keyOperand_length s1 ks)]
  simp only [State.complete_sched, State.loadSchedule_sched, storeSched_getElem, keyOperand_congr hkey,
    List.getD_eq_getElem _ _ hlen]

end Sys2Proof.Machine
end

section
/-! PROOFS. The step (10_state.md R36): the turns of the host, the life of an accepted command, and the flags that only
some turns change (R33, R37). -/

namespace Sys2Proof.Machine

/-! ### The two kinds of step -/

/-- A turn of an idle block is the host's turn. -/
theorem hostCycle_of_idle {s : State} (h : s.busy = false) : s.hostCycle = s.hostTurn := by
  rw [State.hostCycle, tick_of_idle h]

/-- Settles O6: by whether a command is due. -/
theorem stepRunsDecodedCommand : Obligations.StepRunsDecodedCommand := by
  unfold Obligations.StepRunsDecodedCommand
  refine ⟨fun s w i hp hd _ => step_of_due_ok (dueWord_eq_some.2 hp) hd, fun s w n hp => ?_, fun s hp => ?_⟩
  · have ht : s.tick = { s with pending := some ⟨w, n⟩ } := by simp [State.tick, hp]
    rw [step_of_not_due (dueWord_of_wait hp), State.hostCycle, ht]
  · have hb : s.busy = false := by simp [State.busy, hp]
    rw [step_of_not_due (dueWord_of_idle hb), hostCycle_of_idle hb]

/-- A due word completes in one step, and BUSY ends (R36, R106). -/
theorem step_of_due {s : State} {w : Word} (h : s.dueWord = some w) : ∃ t, step s = .next t ∧ t.busy = false := by
  cases hd : decodeCmdw w with
  | ok i =>
    obtain ⟨t, ht⟩ := exec_completes i s
    refine ⟨t, (step_of_due_ok h hd).trans ht, ?_⟩
    rw [exec_frame ht]
    rfl
  | error r => exact ⟨_, step_of_due_error h hd, rfl⟩

/-- Every step goes on (R49, R110). -/
theorem step_completes (s : State) : ∃ t, step s = .next t := by
  cases hw : s.dueWord with
  | none => exact ⟨_, step_of_not_due hw⟩
  | some w =>
    obtain ⟨t, ht, -⟩ := step_of_due hw
    exact ⟨t, ht⟩

/-! ### The life of an accepted command -/

/-- A run goes on from the state it reached. -/
theorem core_run_succ_last {k : Nat} {s u : State} (h : Sys2Proof.core.run k s = .next u) :
    Sys2Proof.core.run (k + 1) s = step u := by
  induction k generalizing s with
  | zero =>
    obtain rfl : s = u := Host.Outcome.next.inj h
    obtain ⟨t, ht⟩ := step_completes s
    exact (core_run_succ ht 0).trans ht.symm
  | succ k ih =>
    obtain ⟨t, ht⟩ := step_completes s
    rw [core_run_succ ht] at h ⊢
    exact ih h

/-- A turn in which `rst` is asserted resets the block; only what the host keeps depends on the transaction that it
issues meanwhile (70_reset_and_hazards.md R119). -/
theorem resetTurn_eq (s : State) (x : Option Htx) :
    s.resetTurn x = { s.resetBlock with host := (s.resetTurn x).host } := by
  rcases x with _ | x
  · rfl
  · cases x <;> rfl

/-- `rst` discards a pending command (R119). -/
@[simp] theorem resetTurn_busy (s : State) (x : Option Htx) : (s.resetTurn x).busy = false := by
  rw [resetTurn_eq]; rfl

/-- After k of the n turns that a pending command's latency has left, without `rst` in them, n - k are left, and nothing
else of the block has changed but DROP (R35, R36, R37). -/
theorem run_pending {k : Nat} {s : State} {w : Word} {n : Nat} (hp : s.pending = some ⟨w, n⟩) (hk : k ≤ n)
    (hrst : ∀ j, j < k → ∀ u, Sys2Proof.core.run j s = .next u → State.rstLine u = false) :
    ∃ t, Sys2Proof.core.run k s = .next t ∧ State.pending t = some ⟨w, n - k⟩ ∧ s.SameBlock t := by
  induction k with
  | zero => exact ⟨s, rfl, hp, .refl s⟩
  | succ k ih =>
    obtain ⟨t, hrun, htp, hsame⟩ := ih (by omega) fun j hj => hrst j (by omega)
    have hwait : State.pending t = some ⟨w, n - (k + 1) + 1⟩ := by rw [htp]; congr 2; omega
    obtain ⟨hp', hs'⟩ := hostCycle_pending hwait (hrst k (by omega) t hrun)
    exact ⟨t.hostCycle, (core_run_succ_last hrun).trans (step_of_not_due (dueWord_of_wait hwait)), hp',
      hsame.trans hs'⟩

/-- Settles O10: a run has one outcome, and it is that of `run_pending`. -/
theorem operandsHeldWhilePending : Obligations.OperandsHeldWhilePending := by
  unfold Obligations.OperandsHeldWhilePending
  intro k s t w n hp hk hrst hrun
  obtain ⟨t', hrun', hpend, hsame⟩ := run_pending hp hk hrst
  obtain rfl : t' = t := by rw [hrun] at hrun'; exact (Host.Outcome.next.inj hrun').symm
  exact ⟨hpend, hsame⟩

/-- BUSY ends after at most one step more than the latency has left: by the completion, or before it by `rst`. -/
theorem busy_ends {n : Nat} {s : State} {w : Word} (hp : s.pending = some ⟨w, n⟩) :
    ∃ k, k ≤ n + 1 ∧ ∃ t, Sys2Proof.core.run k s = .next t ∧ State.busy t = false := by
  induction n generalizing s with
  | zero =>
    obtain ⟨t, ht, hb⟩ := step_of_due (dueWord_eq_some.2 hp)
    exact ⟨1, le_rfl, t, core_run_succ ht 0, hb⟩
  | succ n ih =>
    have hstep := step_of_not_due (dueWord_of_wait hp)
    cases hr : s.rstLine with
    | true =>
      obtain ⟨x, hx⟩ := rstLine_eq_true.1 hr
      refine ⟨1, by omega, _, core_run_succ hstep 0, ?_⟩
      rw [hostCycle_rst hx]
      exact resetTurn_busy ..
    | false =>
      obtain ⟨k, hk, t, hrun, hb⟩ := ih (hostCycle_pending hp hr).1
      exact ⟨k + 1, by omega, t, (core_run_succ hstep k).trans hrun, hb⟩

/-- Settles O9: BUSY ends by induction on the latency left; without `rst`, the state after it is that of
`run_pending`, in which the word is due. -/
theorem acceptedCommandCompletes : Obligations.AcceptedCommandCompletes := by
  unfold Obligations.AcceptedCommandCompletes
  intro s p hp
  refine ⟨busy_ends hp, fun hrst => ?_⟩
  obtain ⟨u, hrun, hpend, hsame⟩ := run_pending hp le_rfl hrst
  rw [Nat.sub_self] at hpend
  have hdue : State.dueWord u = some p.word := dueWord_eq_some.2 hpend
  exact ⟨u, hrun, hsame, hpend, fun i hd => (core_run_succ_last hrun).trans (step_of_due_ok hdue hd),
    fun r hd => (core_run_succ_last hrun).trans (step_of_due_error hdue hd)⟩

/-! ### A transaction line -/

/-- The word that a host read returns does not depend on the latency left. -/
@[simp] theorem tick_readWord (s : State) (woff : BitVec 19) : s.tick.readWord woff = s.readWord woff := by
  obtain ⟨_, _ | p⟩ := s <;> rfl

/-- Whether a host read draws does not depend on the latency left. -/
@[simp] theorem tick_afterRead_draws (s : State) (woff : BitVec 19) :
    (s.tick.afterRead woff).draws = (s.afterRead woff).draws := by
  simp [afterRead_draws, State.readIsDraw]

/-- A turn at a line of the script. -/
theorem hostCycle_of_line {s : State} {l : Line} (h : s.currentLine = some l) : s.hostCycle = s.tick.runLine l := by
  simp [State.hostCycle, State.hostTurn, h]

/-- Settles O57: the turn at a transaction line is the tick, the access and one advance of the index. -/
theorem transactionsAdvanceByOne : Obligations.TransactionsAdvanceByOne := by
  unfold Obligations.TransactionsAdvanceByOne
  intro s hw
  refine ⟨fun woff v hl => ⟨_, step_of_not_due hw, hostCycle_of_line hl, ?_⟩,
    fun woff hl => ⟨_, step_of_not_due hw, ?_, fun hb => ?_⟩⟩
  · rw [hostCycle_of_line hl]
    simp [State.runLine, State.transact]
  · rw [hostCycle_of_line hl, State.runLine, State.transact, State.hostRead, afterRead_eq, tick_afterRead_draws,
      tick_readWord]
    simp [State.keepRead, State.advance, statusWoff]
  · rw [hostCycle_of_line hl, tick_of_idle hb, State.runLine, State.transact, State.hostRead, afterRead_of_idle hb]
    rfl

/-! ### Flags that only some turns change -/

/-- Settles O24: no command, no illegal word and no turn without `rst` clears SCHED_VALID. -/
theorem schedValidClearedOnlyByReset : Obligations.SchedValidClearedOnlyByReset := by
  unfold Obligations.SchedValidClearedOnlyByReset
  intro s t h hs ht
  obtain ⟨w, i, -, -, hx⟩ | ⟨w, r, -, -, rfl⟩ | ⟨hw, rfl⟩ := step_cases h
  · simp [exec_schedValid hx hs] at ht
  · simp [hs] at ht
  · refine ⟨hw, ?_⟩
    by_contra hr
    have hk := (hostCycle_keeps (s := s) (by simpa using hr)).schedValid
    simp [hk, hs] at ht

/-- A property that every access and every move of the host keeps is kept by a line of the script. -/
theorem runLine_induction {P : State → Prop} (l : Line)
    (read : ∀ u woff, P u → P (u.hostRead woff))
    (write : ∀ u woff v, l = .htx (.write woff v) → P u → P (u.hostWrite woff v))
    (reset : ∀ u x, l = .rst x → P u → P (u.resetTurn x))
    (advance : ∀ u, P u → P u.advance)
    (goto : ∀ u n, P u → P (u.goto n))
    (assert : ∀ u v, P u → P (u.assertRead v)) {s : State} (hs : P s) : P (s.runLine l) := by
  cases l with
  | htx x =>
    cases x with
    | read woff => exact advance _ (read s woff hs)
    | write woff v => exact advance _ (write s woff v rfl hs)
  | wait =>
    simp only [State.runLine]
    split
    · exact read s _ hs
    · exact advance _ (read s _ hs)
  | expect woff v => exact advance _ (assert _ v (read s woff hs))
  | brerr c n =>
    simp only [State.runLine]
    split
    · exact goto s n hs
    · exact advance s hs
  | brres v n =>
    simp only [State.runLine]
    split
    · exact goto _ n (read s _ hs)
    · exact advance _ (read s _ hs)
  | jmp n => exact goto s n hs
  | halt => exact hs
  | idle => exact advance s hs
  | rst x => exact advance _ (reset s x rfl hs)

@[simp] theorem resetTurn_drop (s : State) (x : Option Htx) : (s.resetTurn x).drop = false := by
  rw [resetTurn_eq]; rfl

@[simp] theorem hostRead_drop (s : State) (woff : BitVec 19) : (s.hostRead woff).drop = s.drop := by
  simp [State.hostRead]

/-- Only a write and `rst` can change DROP. -/
theorem runLine_drop_of_other {s : State} {l : Line} (hw : ∀ woff v, l ≠ .htx (.write woff v))
    (hr : ∀ x, l ≠ .rst x) : (s.runLine l).drop = s.drop :=
  runLine_induction (P := fun u => u.drop = s.drop) l (fun u woff h => (hostRead_drop u woff).trans h)
    (fun _ woff v h => absurd h (hw woff v)) (fun _ x h => absurd h (hr x)) (fun _ h => h) (fun _ _ h => h)
    (fun _ _ h => h) rfl

/-- What a turn of the host can do to DROP: a write line does what `hostWrite_drop` says, `rst` clears it, and no other
turn changes it. -/
theorem hostCycle_drop_cases (s : State) :
    s.hostCycle.drop = s.drop ∨ (∃ woff v, s.currentLine = some (.htx (.write woff v)) ∧
      s.hostCycle.drop = (s.hostWrite woff v).drop) ∨
    (s.rstLine = true ∧ s.hostCycle.drop = false) := by
  cases hl : s.currentLine with
  | none => exact .inl (by simp [State.hostCycle, State.hostTurn, hl])
  | some l =>
    rw [hostCycle_of_line hl]
    have other : (∀ woff v, l ≠ .htx (.write woff v)) → (∀ x, l ≠ .rst x) → (s.tick.runLine l).drop = s.drop :=
      fun hw hr => (runLine_drop_of_other hw hr).trans (State.tick_drop s)
    cases l with
    | htx x =>
      cases x with
      | read woff => exact .inl (other (by simp) (by simp))
      | write woff v =>
        exact .inr (.inl ⟨woff, v, rfl, by simp [State.runLine, State.transact, hostWrite_drop]⟩)
    | rst x => exact .inr (.inr ⟨rstLine_eq_true.2 ⟨x, hl⟩, resetTurn_drop ..⟩)
    | _ => exact .inl (other (by simp) (by simp))

/-- A write line that sets DROP is at risk, and one that clears it is a STATUS write with bit 2 (R20, R37). -/
theorem writeLine_drop {s : State} {woff : BitVec 19} {v : Word} (hl : s.currentLine = some (.htx (.write woff v))) :
    (s.drop = false → (s.hostWrite woff v).drop = true → s.writeAtRisk = true) ∧
    (s.drop = true → (s.hostWrite woff v).drop = false → woff = 0x001 ∧ v.getLsbD 2 = true) := by
  rw [hostWrite_drop]
  by_cases hst : decodeTarget s.params woff = .status
  · rw [if_pos hst]
    refine ⟨fun hd h => ?_, fun hd h => ⟨decodeTarget_eq_status.1 hst, ?_⟩⟩
    · simp [hd] at h
    · simpa [hd, clearsDrop] using h
  · rw [if_neg hst]
    have hne : woff ≠ statusWoff := mt decodeTarget_eq_status.2 hst
    refine ⟨fun hd h => ?_, fun hd h => ?_⟩
    · simpa [State.writeAtRisk, hl, hd, hne] using h
    · simp [hd] at h

/-- Settles O25: by what a host write does to DROP; a completion leaves it. -/
theorem dropSetAndClearedOnlySo : Obligations.DropSetAndClearedOnlySo := by
  unfold Obligations.DropSetAndClearedOnlySo
  intro s t h
  obtain ⟨w, i, -, -, hx⟩ | ⟨w, r, -, -, rfl⟩ | ⟨hw, rfl⟩ := step_cases h
  · obtain ⟨-, -, -, -, hd, -⟩ := commandsLeaveOperandRegisters i s t hx
    rw [hd]
    simp +contextual
  · simp +contextual
  · obtain hd | ⟨woff, v, hl, hd⟩ | ⟨hr, hd⟩ := hostCycle_drop_cases s
    · rw [hd]; simp +contextual
    · obtain ⟨hset, hclear⟩ := writeLine_drop hl
      rw [hd]
      refine ⟨fun h0 h1 => ⟨hw, hset h0 h1⟩, fun h1 h0 => ⟨hw, .inr ⟨v, ?_⟩⟩⟩
      obtain ⟨rfl, hv⟩ := hclear h1 h0
      exact ⟨hl, hv⟩
    · simp [hd, hw, hr]

end Sys2Proof.Machine
end

section
/-! PROOFS. The state after reset (10_state.md R41), and the invariant of the machine: it holds after reset, and every
command and every turn of the host keeps it. -/

namespace Sys2Proof.Machine

/-! ### Reset -/

/-- Settles O11: each register's value is that of `State.reset`, and SCHED is masked by SCHED_VALID = 0. -/
theorem resetValues : Obligations.ResetValues where
  pending := rfl
  schedValid := rfl
  drop := rfl
  err := rfl
  keylen := rfl
  mlen := rfl
  result := rfl
  schedInfo := rfl
  idRead := readWord_id _
  capsRead := readWord_caps _
  key _ _ := Vector.getElem_replicate ..
  iv _ _ := Vector.getElem_replicate ..
  blk _ _ := Vector.getElem_replicate ..
  chain _ _ := Vector.getElem_replicate ..
  sched _ := rfl
  mbuf _ := rfl

/-- A state with the reset values of what the invariant speaks of meets it, with any parameter. -/
theorem State.Inv.of_reset_values {s : State} (hm : s.mbuf = []) (hv : s.schedValid = false) (hi : s.schedInfo = 0)
    (hr : s.result = 0) (hb : s.busy = false) (he : s.engine = Engine.reset) : s.Inv where
  mbuf_wf := by rw [hm]; exact .nil
  mbuf_bounded := by simp [hm]
  info_invalid _ := hi
  schedule_valid h := by simp [hv] at h
  result_le := by simp [hr]
  busy_err h := by simp [hb] at h
  rnd_le := by simp [he, Engine.reset]
  block_le := by simp [he, Engine.reset]

/-- Settles O13. -/
theorem resetMeetsInvariant : Obligations.ResetMeetsInvariant :=
  .of_reset_values rfl rfl rfl rfl rfl rfl

theorem resetTurn_inv (s : State) (x : Option Htx) : (s.resetTurn x).Inv := by
  rw [resetTurn_eq]
  exact .of_reset_values rfl rfl rfl rfl rfl rfl

/-! ### The turns of the host -/

/-- The invariant speaks of the block and BUSY alone. -/
theorem State.Inv.of_sameBlock {s t : State} (h : s.Inv) (hs : s.SameBlock t) (hb : t.busy = s.busy) : t.Inv where
  mbuf_wf := hs.mbuf ▸ h.mbuf_wf
  mbuf_bounded := by rw [hs.mbuf, hs.params]; exact h.mbuf_bounded
  info_invalid := by rw [hs.schedValid, hs.schedInfo]; exact h.info_invalid
  schedule_valid := by
    unfold State.HoldsSchedule
    rw [hs.schedValid, hs.schedInfo, hs.sched]
    exact h.schedule_valid
  result_le := hs.result ▸ h.result_le
  busy_err := by rw [hb, hs.err]; exact h.busy_err
  rnd_le := hs.engine ▸ h.rnd_le
  block_le := by rw [hs.engine, hs.params]; exact h.block_le

theorem State.Inv.of_busyKeeps {s t : State} (h : s.Inv) (hk : s.BusyKeeps t) : t.Inv :=
  h.of_sameBlock hk.block (by simp only [State.busy, hk.pending])

/-- A host access can break the invariant in MBUF and ERR alone. -/
theorem State.Inv.of_hostKeeps {s t : State} (h : s.Inv) (hk : s.HostKeeps t) (hwf : Memory.wf t.mbuf)
    (hbound : ∀ c ∈ t.mbuf, c.1 < s.params.mbufSize) (herr : t.busy = true → t.err = .ok) : t.Inv where
  mbuf_wf := hwf
  mbuf_bounded := hk.params ▸ hbound
  info_invalid := by rw [hk.schedValid, hk.schedInfo]; exact h.info_invalid
  schedule_valid := by
    unfold State.HoldsSchedule
    rw [hk.schedValid, hk.schedInfo, hk.sched]
    exact h.schedule_valid
  result_le := hk.result ▸ h.result_le
  busy_err := herr
  rnd_le := hk.engine ▸ h.rnd_le
  block_le := by rw [hk.engine, hk.params]; exact h.block_le

/-- The port word that a row of MBUF selects lies inside the buffer (20_memory.md R44). -/
theorem mbuf_word_bounded {p : Params} {woff : BitVec 19} {q : Nat} (h : decodeTarget p woff = .mbuf q) :
    4 * q + 4 ≤ p.mbufSize := by
  have hs := decodeTarget_says p woff
  rw [h] at hs
  have hq : 4 * q < p.mbufSize := hs.2
  have hm := (mbufSize_bounds p).1
  omega

/-- An idle write to another place than MBUF leaves it alone. -/
theorem writeIdle_mbuf {t : Target} (ht : ∀ q, t ≠ .mbuf q) (s : State) (v : Word) :
    (s.writeIdle t v).mbuf = s.mbuf := by
  cases t with
  | mbuf q => exact absurd rfl (ht q)
  | _ => simp [State.writeIdle]

/-- An idle write starts a command only with ERR = 0 (10_state.md R34). -/
theorem writeIdle_busy_err {s : State} (hb : s.busy = false) (t : Target) (v : Word) :
    (s.writeIdle t v).busy = true → (s.writeIdle t v).err = .ok := by
  have hp : s.pending = none := by simpa [State.busy] using hb
  cases t with
  | cmd => exact fun _ => rfl
  | _ => simp [State.writeIdle, State.busy, hp]

theorem writeIdle_inv {s : State} (h : s.Inv) (hb : s.busy = false) (woff : BitVec 19) (v : Word) :
    (s.writeIdle (decodeTarget s.params woff) v).Inv := by
  have hk := writeIdle_keeps s (decodeTarget s.params woff) v
  have herr := writeIdle_busy_err hb (decodeTarget s.params woff) v
  by_cases ht : ∃ q, decodeTarget s.params woff = .mbuf q
  · obtain ⟨q, hq⟩ := ht
    rw [hq] at hk herr ⊢
    exact h.of_hostKeeps hk (State.memWrite_wf h.mbuf_wf ..)
      (Memory.writeBytes_bounded h.mbuf_bounded _ _ (mbuf_word_bounded hq)) herr
  · have hm := writeIdle_mbuf (not_exists.1 ht) s v
    exact h.of_hostKeeps hk (hm ▸ h.mbuf_wf) (hm ▸ h.mbuf_bounded) herr

theorem hostWrite_inv {s : State} (h : s.Inv) (woff : BitVec 19) (v : Word) : (s.hostWrite woff v).Inv := by
  cases hb : s.busy with
  | true => exact h.of_busyKeeps (hostWrite_busyKeeps hb woff v)
  | false =>
    rw [hostWrite_of_idle hb]
    exact writeIdle_inv h hb woff v

theorem tick_sameBlock (s : State) : s.SameBlock s.tick := by constructor <;> simp

theorem hostCycle_inv {s : State} (h : s.Inv) : s.hostCycle.Inv := by
  have ht : s.tick.Inv := h.of_sameBlock (tick_sameBlock s) (State.tick_busy s)
  unfold State.hostCycle State.hostTurn
  split
  · exact runLine_induction _ (fun u woff hu => hu.of_busyKeeps (hostRead_busyKeeps u woff))
      (fun u woff v _ hu => hostWrite_inv hu woff v) (fun u x _ _ => resetTurn_inv u x)
      (fun u hu => hu.of_busyKeeps (advance_busyKeeps u)) (fun u n hu => hu.of_busyKeeps (goto_busyKeeps u n))
      (fun u v hu => hu.of_busyKeeps (assertRead_busyKeeps u v)) ht
  · exact ht

/-! ### The commands -/

theorem raiseError_inv {s : State} (h : s.Inv) (c : ErrCode) : (s.raiseError c).Inv :=
  { h with busy_err := fun hb => by simp at hb }

/-- The end of a command keeps everything but `busy_err`, which it makes void. -/
theorem complete_inv {s : State} (h : s.Inv) : s.complete.Inv :=
  { h with busy_err := fun _ => rfl }

/-- A schedule stored from a key operand is a schedule held (R74, R92). -/
theorem loadSchedule_holds (s : State) (ks : KeySize) :
    (s.loadSchedule ks (expand (s.keyOperand ks))).HoldsSchedule := by
  have hlen := expand_length (keyOperand_length s ks)
  have hn : keyNwords ks ≤ 60 := by cases ks <;> decide
  refine ⟨ks, s.keyOperand ks, keyOperand_length s ks, rfl, ?_⟩
  generalize expand (s.keyOperand ks) = w at hlen
  refine List.ext_getElem (by simp [hlen, hn]) fun i _ hi => ?_
  simp [storeSched_getElem, hi]

theorem loadSchedule_inv {s : State} (h : s.Inv) (ks : KeySize) :
    (s.loadSchedule ks (expand (s.keyOperand ks))).Inv :=
  { h with
    info_invalid := fun hv => by simp at hv
    schedule_valid := fun _ => loadSchedule_holds s ks }

/-- The NR of a schedule held is at most 14 (R7, R24). -/
theorem infoNr_le {s : State} (h : s.HoldsSchedule) : infoNr s.schedInfo ≤ 14 := by
  obtain ⟨ks, k, -, hi, -⟩ := h
  rw [hi]
  cases ks <;> decide

theorem keyNr_le (ks : KeySize) : keyNr ks ≤ 14 := by cases ks <;> decide

/-- A hidden state whose counters are in their ranges. -/
theorem setEngine_inv {s : State} (h : s.Inv) (e : Engine) (hrnd : e.rnd ≤ 14)
    (hidx : e.blockIdx ≤ s.params.mbufSize / 16) : { s with engine := e }.Inv :=
  { h with
    rnd_le := hrnd
    block_le := hidx }

theorem runCipher_inv {s : State} (h : s.Inv) (b : Block) (w : List Word) {nr : Nat} (hnr : nr ≤ 14) :
    (s.runCipher b w nr).Inv :=
  setEngine_inv h { s.engine with round := cipher b w nr, rnd := nr } hnr h.block_le

theorem runInvCipher_inv {s : State} (h : s.Inv) (b : Block) (w : List Word) (nr : Nat) :
    (s.runInvCipher b w nr).Inv :=
  setEngine_inv h { s.engine with round := invCipher b w nr, rnd := 0 } (Nat.zero_le 14) h.block_le

/-- The invariant does not speak of BLK. -/
theorem setBlk_inv {s : State} (h : s.Inv) (b : Block) : { s with blk := b }.Inv := { h with }

/-- What a CBC run has kept when it is at block i: the invariant, and the parameter p. -/
structure State.CbcInv (p : Params) (i : Nat) (s : State) : Prop where
  inv : s.Inv
  params : s.params = p
  blockIdx : s.engine.blockIdx = i

/-- A turn that stores a block at the block counter and goes to the next keeps this, while the block lies inside the
buffer. -/
theorem State.CbcInv.next {p : Params} {i : Nat} {s t : State} (h : s.CbcInv p i) (hi : i < p.mbufSize / 16)
    {c b : Block} {e : Engine} (hrnd : e.rnd ≤ 14) (hidx : e.blockIdx = s.engine.blockIdx + 1)
    (ht : t = { s with
      chain := c, mbuf := Memory.writeBytes s.mbuf (16 * s.engine.blockIdx) b.toList, engine := e }) :
    t.CbcInv p (i + 1) := by
  obtain ⟨hinv, rfl, rfl⟩ := h
  subst ht
  refine ⟨{ hinv with
    mbuf_wf := Memory.writeBytes_wf hinv.mbuf_wf ..
    mbuf_bounded := Memory.writeBytes_bounded hinv.mbuf_bounded _ _ ?_
    rnd_le := hrnd
    block_le := ?_ }, rfl, hidx⟩
  · rw [Vector.length_toList]; omega
  · exact hidx ▸ hi

theorem cbcEncBlock_inv {p : Params} {i : Nat} {s : State} (w : List Word) {nr : Nat} (hnr : nr ≤ 14)
    (hi : i < p.mbufSize / 16) (h : s.CbcInv p i) : (cbcEncBlock w nr s).CbcInv p (i + 1) :=
  h.next hi hnr rfl (cbcEncBlock_eq w nr s)

theorem cbcDecBlock_inv {p : Params} {i : Nat} {s : State} (w : List Word) (nr : Nat)
    (hi : i < p.mbufSize / 16) (h : s.CbcInv p i) : (cbcDecBlock w nr s).CbcInv p (i + 1) :=
  h.next hi (Nat.zero_le 14) rfl (cbcDecBlock_eq w nr s)

/-- The loop of a CBC command, over blocks that lie inside the buffer. -/
theorem blockLoop_inv {p : Params} {turn : State → State}
    (hturn : ∀ i u, i < p.mbufSize / 16 → State.CbcInv p i u → State.CbcInv p (i + 1) (turn u)) {s : State}
    (h : s.CbcInv p 0) {n : Nat} (hn : n ≤ p.mbufSize / 16) : (blockLoop turn n s).CbcInv p n := by
  induction n with
  | zero => exact h
  | succ n ih => exact hturn n _ hn (ih (by omega))

theorem cbcStart_inv {s : State} (h : s.Inv) (ks : KeySize) :
    (s.cbcStart ks (expand (s.keyOperand ks))).CbcInv s.params 0 :=
  ⟨{ loadSchedule_inv h ks with block_le := Nat.zero_le _ }, rfl, rfl⟩

theorem cbcOperands_blocks_le {s : State} {ks : KeySize} {n : Nat} (h : s.cbcOperands = .ok (ks, n)) :
    n ≤ s.params.mbufSize / 16 := by
  obtain ⟨hle, -, -, rfl⟩ := cbcOperands_eq_ok.1 h
  exact Nat.div_le_div_right hle

/-- RESULT written with a count of at most 16 (10_state.md R23). -/
theorem setResult_inv {s : State} (h : s.Inv) {k : Nat} (hk : k ≤ 16) : (s.setResult k).Inv :=
  { h with
    result_le := by
      rw [State.setResult_result, BitVec.toNat_ofNat]
      omega }

/-- The invariant does not speak of MLEN. -/
theorem setMlen_inv {s : State} (h : s.Inv) (n : Nat) : (s.setMlen n).Inv := { h with }

theorem memWrite_inv {s : State} (h : s.Inv) {a : Nat} {bs : List Byte} (hb : a + bs.length ≤ s.params.mbufSize) :
    (s.memWrite a bs).Inv :=
  { h with
    mbuf_wf := State.memWrite_wf h.mbuf_wf ..
    mbuf_bounded := Memory.writeBytes_bounded h.mbuf_bounded _ _ hb }

/-- Every command keeps the invariant. -/
theorem exec_inv {i : Instr} {s t : State} (h : s.Inv) (hx : exec i s = .next t) : t.Inv := by
  cases i with
  | keyexp =>
    obtain ⟨-, rfl⟩ | ⟨ks, -, rfl⟩ := execKeyexp_cases hx
    · exact raiseError_inv h _
    · exact complete_inv (loadSchedule_inv h ks)
  | encblk =>
    obtain ⟨-, rfl⟩ | ⟨hv, rfl⟩ := execEncblk_cases hx
    · exact raiseError_inv h _
    · have hr := runCipher_inv h s.blk s.storedSchedule (infoNr_le (h.schedule_valid hv))
      exact complete_inv (setBlk_inv hr _)
  | decblk =>
    obtain ⟨-, rfl⟩ | ⟨-, rfl⟩ := execDecblk_cases hx
    · exact raiseError_inv h _
    · have hr := runInvCipher_inv h s.blk s.storedSchedule (infoNr s.schedInfo)
      exact complete_inv (setBlk_inv hr _)
  | cbcenc =>
    obtain ⟨c, -, rfl⟩ | ⟨ks, n, ho, rfl⟩ := execCbcenc_cases hx
    · exact raiseError_inv h c
    · exact complete_inv (blockLoop_inv (fun _ _ hi hu => cbcEncBlock_inv _ (keyNr_le ks) hi hu)
        (cbcStart_inv h ks) (cbcOperands_blocks_le ho)).inv
  | cbcdec =>
    obtain ⟨c, -, rfl⟩ | ⟨ks, n, ho, rfl⟩ := execCbcdec_cases hx
    · exact raiseError_inv h c
    · exact complete_inv (blockLoop_inv (fun _ _ hi hu => cbcDecBlock_inv _ (keyNr ks) hi hu)
        (cbcStart_inv h ks) (cbcOperands_blocks_le ho)).inv
  | pad =>
    obtain ⟨-, rfl⟩ | ⟨-, -, rfl⟩ | ⟨hfit, rfl⟩ := execPad_cases hx
    · exact raiseError_inv h _
    · exact raiseError_inv h _
    · obtain ⟨-, hk, -⟩ := padCount_spec s.mlen.toNat
      exact complete_inv (setResult_inv (setMlen_inv (memWrite_inv h (by simpa using hfit)) _) hk)
  | padlen =>
    obtain ⟨-, rfl⟩ | ⟨-, rfl⟩ := execPadlen_cases hx
    · exact raiseError_inv h _
    · exact complete_inv (setResult_inv h (padLength_le s _).1)
  | unpad =>
    obtain ⟨-, rfl⟩ | ⟨-, rfl⟩ := execUnpad_cases hx
    · exact raiseError_inv h _
    · exact complete_inv (setResult_inv (setMlen_inv h _) (padLength_le s _).1)

/-- Settles O14: by the three kinds of step. -/
theorem stepKeepsInvariant : Obligations.StepKeepsInvariant := by
  unfold Obligations.StepKeepsInvariant
  intro s t h hstep
  obtain ⟨w, i, -, -, hx⟩ | ⟨w, r, -, -, rfl⟩ | ⟨-, rfl⟩ := step_cases hstep
  · exact exec_inv h hx
  · exact raiseError_inv h _
  · exact hostCycle_inv h

end Sys2Proof.Machine
end

section
/-! PROOFS. Totality of the step (20_memory.md R49; 60_exceptions.md R110), and the read after a write at the host port
(R52). -/

namespace Sys2Proof.Machine

/-- Settles O8: a due word completes, and without one the host has its turn. -/
theorem noStepStops : Obligations.NoStepStops := by
  unfold Obligations.NoStepStops
  exact step_completes

/-! ### A word of the message buffer written by the host -/

/-- The word written to MBUF is read back (20_memory.md R44, R48). -/
theorem mbufWord_memWrite_wordBytes (s : State) (q : Nat) (v : Word) :
    (s.memWrite (4 * q) (wordBytes v)).mbufWord q = v := by
  have hstored : ∀ k (hk : k < 4), (s.memWrite (4 * q) (wordBytes v)).mbufByte (4 * q + k) = (wordBytes v)[k]'hk :=
    fun _ hk => State.memWrite_stored s hk
  have h0 := hstored 0 (by decide)
  rw [Nat.add_zero] at h0
  rw [State.mbufWord, h0, hstored 1 (by decide), hstored 2 (by decide), hstored 3 (by decide)]
  exact be32_wordByte v

/-- The other words of MBUF stay as they were. -/
theorem mbufWord_memWrite_wordBytes_of_ne (s : State) {p q : Nat} (v : Word) (hpq : p ≠ q) :
    (s.memWrite (4 * q) (wordBytes v)).mbufWord p = s.mbufWord p := by
  have hlen : (wordBytes v).length = 4 := rfl
  have hframe : ∀ k, k < 4 →
      (s.memWrite (4 * q) (wordBytes v)).mbufByte (4 * p + k) = s.mbufByte (4 * p + k) :=
    fun k hk => State.memWrite_frame s (by omega)
  have h0 := hframe 0 (by decide)
  rw [Nat.add_zero] at h0
  rw [State.mbufWord, h0, hframe 1 (by decide), hframe 2 (by decide), hframe 3 (by decide), ← State.mbufWord]

/-! ### An idle write to a RW register -/

/-- A RW place holds the word written (10_state.md R15, R52). -/
theorem registerWord_writeIdle_self {t : Target} (h : isRW t = true) (s : State) (v : Word) :
    (s.writeIdle t v).registerWord t = v := by
  cases t with
  | keylen | mlen => rfl
  | key q | iv q | blk q => exact arrayWord_setArrayWord ..
  | mbuf q => exact mbufWord_memWrite_wordBytes s q v
  | _ => cases h

/-- A write to a RW place leaves STATUS as it was (10_state.md R20). -/
theorem statusWord_writeIdle_of_isRW {t : Target} (h : isRW t = true) (s : State) (v : Word) :
    statusWord (s.writeIdle t v) = statusWord s := by
  cases t with
  | keylen | mlen | key _ | iv _ | blk _ | mbuf _ => simp [State.writeIdle, statusWord, State.busy]
  | _ => cases h

/-- A write to a RW place leaves every place that is not RW as it was (10_state.md R15). -/
theorem registerWord_writeIdle_of_not_isRW {t u : Target} (h : isRW t = true) (hu : isRW u = false) (s : State)
    (v : Word) : (s.writeIdle t v).registerWord u = s.registerWord u := by
  have hk := writeIdle_keeps s t v
  cases u with
  | cmd | id | reserved => simp only [State.registerWord]
  | status => exact statusWord_writeIdle_of_isRW h s v
  | result => exact hk.result
  | schedInfo => simp only [State.registerWord, schedInfoRead, hk.schedValid, hk.schedInfo]
  | caps => simp only [State.registerWord, hk.params]
  | chain q => simp only [State.registerWord, hk.chain]
  | sched i => simp only [State.registerWord, schedRead, hk.schedValid, hk.schedInfo, hk.sched]
  | _ => cases hu

/-- A write to another place leaves a RW place as it was (R52). -/
theorem registerWord_writeIdle_of_ne {t u : Target} (hu : isRW u = true) (hne : u ≠ t) (s : State) (v : Word) :
    (s.writeIdle t v).registerWord u = s.registerWord u := by
  cases u with
  | keylen =>
    cases t with
    | keylen => exact absurd rfl hne
    | _ => simp [State.writeIdle, State.registerWord]
  | mlen =>
    cases t with
    | mlen => exact absurd rfl hne
    | _ => simp [State.writeIdle, State.registerWord]
  | key p =>
    cases t with
    | key q => exact arrayWord_setArrayWord_of_ne s.key p q v (by omega) fun e => hne (congrArg Target.key (Fin.ext e))
    | _ => simp [State.writeIdle, State.registerWord]
  | iv p =>
    cases t with
    | iv q => exact arrayWord_setArrayWord_of_ne s.iv p q v (by omega) fun e => hne (congrArg Target.iv (Fin.ext e))
    | _ => simp [State.writeIdle, State.registerWord]
  | blk p =>
    cases t with
    | blk q => exact arrayWord_setArrayWord_of_ne s.blk p q v (by omega) fun e => hne (congrArg Target.blk (Fin.ext e))
    | _ => simp [State.writeIdle, State.registerWord]
  | mbuf p =>
    by_cases ht : ∃ q, t = .mbuf q
    · obtain ⟨q, rfl⟩ := ht
      exact mbufWord_memWrite_wordBytes_of_ne s v fun e => hne (congrArg Target.mbuf e)
    · simp only [State.registerWord, State.mbufWord, State.mbufByte, writeIdle_mbuf (not_exists.1 ht)]
  | _ => cases hu

/-- A write to a RW place starts no command (10_state.md R34). -/
theorem writeIdle_busy_of_isRW {t : Target} (h : isRW t = true) (s : State) (v : Word) :
    (s.writeIdle t v).busy = s.busy := by
  cases t with
  | keylen | mlen | key _ | iv _ | blk _ | mbuf _ => simp [State.writeIdle, State.busy]
  | _ => cases h

/-- An idle read after an idle write to a RW register gives the word of the written state at the row of its offset. -/
theorem readWord_hostWrite_of_isRW {s : State} {woff : BitVec 19} (hb : s.busy = false)
    (h : isRW (decodeTarget s.params woff) = true) (v : Word) (other : BitVec 19) :
    (s.hostWrite woff v).readWord other =
      (s.writeIdle (decodeTarget s.params woff) v).registerWord (decodeTarget s.params other) := by
  rw [hostWrite_of_idle hb, readWord_of_idle ((writeIdle_busy_of_isRW h s v).trans hb), (writeIdle_keeps ..).params]

/-- Settles O22: both reads are register words of the written state, and only the offset written selects its row. -/
theorem readAfterWrite : Obligations.ReadAfterWrite := by
  unfold Obligations.ReadAfterWrite
  intro s woff v hb hrw
  have hread := readWord_hostWrite_of_isRW hb hrw v
  refine ⟨(hread woff).trans (registerWord_writeIdle_self hrw s v), fun other hne => ?_⟩
  have hrow : decodeTarget s.params other ≠ decodeTarget s.params woff := fun he =>
    hne (decodeTarget_inj he.symm fun hr => by simp [hr, isRW] at hrw).symm
  rw [hread other, readWord_of_idle hb]
  cases hu : isRW (decodeTarget s.params other) with
  | true => exact registerWord_writeIdle_of_ne hu hrow s v
  | false => exact registerWord_writeIdle_of_not_isRW hrw hu s v

end Sys2Proof.Machine
end

section
/-! PROOFS. The encodings (30_encoding.md R58 to R62, R65): the decoder and the encoder of command words, and the wire
form of host transactions. -/

namespace Sys2Proof.Machine

/-! ### The fields of a command word -/

theorem toNat_rsvField (v : Word) : (rsvField v).toNat = v.toNat / 256 := by
  have hv := v.isLt
  simp only [rsvField, BitVec.extractLsb'_toNat, Nat.shiftRight_eq_div_pow]
  omega

theorem toNat_opField (v : Word) : (opField v).toNat = v.toNat % 256 := by
  simp [opField]

@[simp] theorem toNat_encode (i : Instr) : (encode i).toNat = (opcode i).toNat := by
  cases i <;> rfl

/-- RSV is 0 exactly in the words below 0x100 (R59). -/
theorem rsvField_eq_zero {v : Word} : rsvField v = 0 ↔ v.toNat < 256 := by
  rw [← BitVec.toNat_inj, toNat_rsvField]
  exact Nat.div_eq_zero_iff_lt (by decide)

/-- A word below 0x100 is the encoding of a command exactly when its OP is the opcode. -/
theorem eq_encode_iff {v : Word} {i : Instr} (h : v.toNat < 256) : v = encode i ↔ opField v = opcode i := by
  rw [← BitVec.toNat_inj, ← BitVec.toNat_inj, toNat_encode, toNat_opField, Nat.mod_eq_of_lt h]

/-! ### The decoder -/

/-- The opcode map of R60 read in both directions. -/
theorem decodeOp_eq_ok {op : BitVec 8} {i : Instr} : decodeOp op = .ok i ↔ op = opcode i := by
  constructor
  · intro h
    unfold decodeOp at h
    split at h <;> cases h <;> exact BitVec.eq_of_toNat_eq ‹_›
  · rintro rfl
    cases i <;> rfl

/-- OP in 0x09..0xFF (R62). -/
theorem decodeOp_of_unassigned {op : BitVec 8} (h : 9 ≤ op.toNat) : decodeOp op = .error .opcodeUnassigned := by
  unfold decodeOp
  split
  case h_10 => rfl
  all_goals omega

theorem decodeCmdw_of_lt {v : Word} (h : v.toNat < 256) : decodeCmdw v = decodeOp (opField v) := by
  rw [decodeCmdw, if_neg (not_not.2 (rsvField_eq_zero.2 h))]

theorem decodeCmdw_of_ge {v : Word} (h : 256 ≤ v.toNat) : decodeCmdw v = .error .reservedBitsSet := by
  rw [decodeCmdw, if_pos (mt rsvField_eq_zero.1 (Nat.not_lt.2 h))]

/-- A word is a command exactly when it is that command's encoding (R59, R60). -/
theorem decodeCmdw_eq_ok {v : Word} {i : Instr} : decodeCmdw v = .ok i ↔ v = encode i := by
  by_cases h : v.toNat < 256
  · rw [decodeCmdw_of_lt h, decodeOp_eq_ok, eq_encode_iff h]
  · rw [decodeCmdw_of_ge (Nat.not_lt.1 h)]
    refine iff_of_false (by simp) ?_
    rintro rfl
    exact h ((toNat_encode i).trans_lt (opcode i).isLt)

theorem decodeCmdw_encode (i : Instr) : decodeCmdw (encode i) = .ok i := decodeCmdw_eq_ok.2 rfl

/-- Settles O2: by RSV, and below 0x100 by the opcode map. -/
theorem decoderOnEveryWord : Obligations.DecoderOnEveryWord := by
  unfold Obligations.DecoderOnEveryWord
  intro v
  refine ⟨decodeCmdw_of_ge, fun h0 => ?_, fun h9 h => ?_, fun i => decodeCmdw_eq_ok⟩
  · obtain rfl : v = 0 := BitVec.eq_of_toNat_eq h0
    rfl
  · rw [decodeCmdw_of_lt h]
    refine decodeOp_of_unassigned ?_
    rwa [toNat_opField, Nat.mod_eq_of_lt h]

/-- Settles O1: the eight words are the encodings of the eight commands. -/
theorem commandWordsDecode : Obligations.CommandWordsDecode := by
  unfold Obligations.CommandWordsDecode
  exact ⟨⟨decodeCmdw_encode .keyexp, rfl⟩, ⟨decodeCmdw_encode .encblk, rfl⟩, ⟨decodeCmdw_encode .decblk, rfl⟩,
    ⟨decodeCmdw_encode .cbcenc, rfl⟩, ⟨decodeCmdw_encode .cbcdec, rfl⟩, ⟨decodeCmdw_encode .pad, rfl⟩,
    ⟨decodeCmdw_encode .padlen, rfl⟩, ⟨decodeCmdw_encode .unpad, rfl⟩⟩

/-! ### The wire form of a host transaction -/

theorem decode_encode_htx (t : Htx) : t.encode.decode = some t := by
  cases t <;> rfl

/-- Only a transaction's own wire form decodes to it (R58). -/
theorem encode_of_decode_htx {x : HtxWire} {t : Htx} (h : x.decode = some t) : t.encode = x := by
  obtain ⟨dir, woff, data⟩ := x
  cases data with
  | none =>
    obtain ⟨rfl, rfl⟩ : dir = 0 ∧ .read woff = t := by simpa [HtxWire.decode] using h
    rfl
  | some v =>
    obtain ⟨rfl, rfl⟩ : dir = 1 ∧ .write woff v = t := by simpa [HtxWire.decode] using h
    rfl

/-- Settles O3: by the round trip of command words, and by the direction of a transaction. -/
theorem encodingsRoundTrip : Obligations.EncodingsRoundTrip := by
  unfold Obligations.EncodingsRoundTrip
  exact ⟨fun i _ => decodeCmdw_encode i, decode_encode_htx, fun _ _ => encode_of_decode_htx⟩

end Sys2Proof.Machine
end

section
/-! PROOFS. The lines of a host script that are no transaction (30_encoding.md R67): `wait`, the branches, `halt` and
`expect`. -/

namespace Sys2Proof.Machine

/-! ### Reads of the host -/

/-- BUSY of a STATUS word (10_state.md R20). -/
@[simp] theorem statusBusy_statusWord (s : State) : statusBusy (statusWord s) = s.busy := by
  simp only [statusBusy, statusWord, BitVec.getLsbD_append]
  simp

/-- STATUS does not show the latency left. -/
@[simp] theorem tick_statusWord (s : State) : statusWord s.tick = statusWord s := by
  rw [← readWord_status, tick_readWord, readWord_status]

/-- A host read puts its word on the host's side; of the rest only the count of draws can move (20_memory.md R48). -/
theorem hostRead_tick (s : State) (woff : BitVec 19) :
    s.tick.hostRead woff = { s.tick with
      draws := (s.afterRead woff).draws
      host := { s.host with
        rdata := s.readWord woff
        lastStatus := if woff = statusWoff then s.readWord woff else s.host.lastStatus } } := by
  rw [State.hostRead, tick_readWord, afterRead_eq, tick_afterRead_draws, State.keepRead, State.tick_host]

/-- A poll of STATUS gives the host its word (10_state.md R38). -/
@[simp] theorem hostRead_statusWoff_host (s : State) : (s.hostRead statusWoff).host =
    { s.host with rdata := statusWord s, lastStatus := statusWord s } := by
  simp [State.hostRead]

@[simp] theorem hostRead_busy (s : State) (woff : BitVec 19) : (s.hostRead woff).busy = s.busy := by
  simp [State.hostRead, State.busy]

@[simp] theorem advance_busy (s : State) : s.advance.busy = s.busy := rfl

/-! ### A turn at each line -/

/-- To go on is to go to the next line, so a branch goes to one line or the other. -/
theorem ite_goto_advance (c : Prop) [Decidable c] (s : State) (l : Nat) :
    (if c then s.goto l else s.advance) = s.goto (if c then l else s.host.pos + 1) := by
  split <;> rfl

theorem runLine_wait (s : State) : s.runLine .wait =
    if s.busy then s.hostRead statusWoff else (s.hostRead statusWoff).advance := by
  rw [State.runLine, readWord_status, statusBusy_statusWord]

/-- Settles O58: the poll reads STATUS, and by its BUSY bit the host stays or goes on. -/
theorem waitPollsUntilIdle : Obligations.WaitPollsUntilIdle := by
  unfold Obligations.WaitPollsUntilIdle
  intro s hw hl
  refine ⟨_, step_of_not_due hw, ?_⟩
  rw [hostCycle_of_line hl, runLine_wait, State.tick_busy]
  cases hb : s.busy with
  | true => simp [hb]
  | false => simp [hb]

/-- Settles O59: line by line, the turn is the tick, the read if the line has one, and the host's move. -/
theorem branchesActOnTheHostOnly : Obligations.BranchesActOnTheHostOnly := by
  unfold Obligations.BranchesActOnTheHostOnly
  intro s l hw
  have turn : ∀ {x : Line}, s.currentLine = some x → step s = .next (s.tick.runLine x) := fun hl => by
    rw [step_of_not_due hw, hostCycle_of_line hl]
  refine ⟨fun c hl => ?_, fun hl => ?_, turn, fun v hl => ?_, fun woff v hl => ?_, fun hb => ?_, fun hb => ?_⟩
  · rw [turn hl, State.runLine, ite_goto_advance, State.goto, State.tick_host]
    rfl
  · rw [turn hl, State.runLine, State.goto, State.tick_host]
  · rw [turn hl, State.runLine, ite_goto_advance, hostRead_tick, tick_readWord]
    rfl
  · rw [turn hl, State.runLine, hostRead_tick]
    rfl
  · exact ⟨readWord_of_idle hb 0x004, fun woff => by rw [afterRead_of_idle hb]⟩
  · obtain ⟨hread, hafter⟩ := readWord_of_draw (woff := 0x004) hb rfl
    exact ⟨hread, by rw [hafter]⟩

end Sys2Proof.Machine
end

section
/-! PROOFS. The expansion and assembly of a host script (30_encoding.md R65 to R67). -/

namespace Sys2Proof.Machine

/-! ### The lines of a byte sequence -/

theorem wordsOf_getElem? {bs : List Byte} {q : Nat} (h : q < bs.length / 4) :
    (wordsOf bs)[q]? = some
      (be32 (bs.getD (4 * q) 0) (bs.getD (4 * q + 1) 0) (bs.getD (4 * q + 2) 0) (bs.getD (4 * q + 3) 0)) := by
  simp [wordsOf, h]

@[simp] theorem wrArray_length (woff : BitVec 19) (bs : List Byte) : (wrArray woff bs).length = bs.length / 4 := by
  simp [wrArray]

/-- The line for word q of an array (R67). -/
theorem wrArray_getElem? (n : Nat) {bs : List Byte} {q : Nat} (h : q < bs.length / 4) :
    (wrArray (BitVec.ofNat 19 n) bs)[q]? = some (.htx (.write (BitVec.ofNat 19 (n + q))
      (be32 (bs.getD (4 * q) 0) (bs.getD (4 * q + 1) 0) (bs.getD (4 * q + 2) 0) (bs.getD (4 * q + 3) 0)))) := by
  simp [wrArray, List.getElem?_zipIdx, wordsOf_getElem? h, wrLine, BitVec.ofNat_add]

theorem padToWord_length (bs : List Byte) : (padToWord bs).length = 4 * ((bs.length + 3) / 4) := by
  simp only [padToWord, List.length_append, List.length_replicate]
  omega

/-- The bytes that the padding appends are those that a read past the end gives. -/
theorem padToWord_getD (bs : List Byte) (k : Nat) : (padToWord bs).getD k 0 = bs.getD k 0 := by
  by_cases hk : k < bs.length
  · rw [padToWord, List.getD_append _ _ _ _ hk]
  · rw [List.getD_eq_default bs _ (Nat.not_lt.1 hk)]
    simp [padToWord, List.getElem?_append_right (Nat.not_lt.1 hk)]

/-- A padded message takes its length in words, rounded up. -/
theorem wrArray_padToWord_length (woff : BitVec 19) (bs : List Byte) :
    (wrArray woff (padToWord bs)).length = (bs.length + 3) / 4 := by
  rw [wrArray_length, padToWord_length, Nat.mul_div_cancel_left _ (by decide)]

/-- The line for word q of a padded message: the bytes past the end are zero (R67). -/
theorem wrArray_padToWord_getElem? (n : Nat) {bs : List Byte} {q : Nat} (h : q < (bs.length + 3) / 4) :
    (wrArray (BitVec.ofNat 19 n) (padToWord bs))[q]? = some (.htx (.write (BitVec.ofNat 19 (n + q))
      (be32 (bs.getD (4 * q) 0) (bs.getD (4 * q + 1) 0) (bs.getD (4 * q + 2) 0) (bs.getD (4 * q + 3) 0)))) := by
  have hq : q < (padToWord bs).length / 4 := by
    rwa [padToWord_length, Nat.mul_div_cancel_left _ (by decide)]
  simp only [wrArray_getElem? n hq, padToWord_getD]

/-! ### Labels and branches -/

/-- A label stands for the index of the first line after it (R67). -/
theorem labelPos_of_first {q1 : List Stmt} (q2 : List Stmt) {l : Nat} (h : Stmt.label l ∉ q1) :
    labelPos (q1 ++ .label l :: q2) l = (q1.flatMap expandStmt).length := by
  induction q1 with
  | nil => simp [labelPos]
  | cons st q1 ih =>
    obtain ⟨hst, hq⟩ := not_or.1 (mt List.mem_cons.2 h)
    rw [List.cons_append, labelPos, if_neg (Ne.symm hst), ih hq, List.flatMap_cons, List.length_append]

/-- Where the line of a statement that expands to one line stands in the assembled script. -/
theorem assemble_getElem? {p1 p2 : List Stmt} {st : Stmt} {y : Line} (h : expandStmt st = [y]) :
    (assemble (p1 ++ st :: p2))[(p1.flatMap expandStmt).length]? =
      some (retarget (labelPos (p1 ++ st :: p2)) y) := by
  simp [assemble, h]

/-- Settles O60: the array lines by word, the message by its padding, the branches by the place of the label. -/
theorem pseudoInstructionsExpand : Obligations.PseudoInstructionsExpand := by
  unfold Obligations.PseudoInstructionsExpand
  refine ⟨fun _ => rfl, fun _ _ => ⟨rfl, rfl⟩, fun bs _ => ⟨?_, rfl, fun q hq => wrArray_getElem? 0x008 hq⟩,
    fun a bs _ => ⟨wrArray_length .., fun q hq => ?_⟩, fun bs _ => ?_, ?_⟩
  · rw [expandStmt, List.length_cons, wrArray_length, Nat.add_comm]
  · rw [show (a.byteOffset + 4 * q) / 4 = a.byteOffset / 4 + q by omega]
    exact wrArray_getElem? _ hq
  · have hlen := wrArray_padToWord_length (Off.mbuf 0).woff bs
    refine ⟨?_, fun q hq => ?_, ?_⟩
    · rw [expandStmt, List.length_append, hlen, List.length_singleton]
    · rw [expandStmt, List.getElem?_append_left (hlen ▸ hq)]
      exact wrArray_padToWord_getElem? 0x400 hq
    · rw [expandStmt, ← hlen, List.getElem?_concat_length]
      rfl
  · intro p p1 p2 q1 q2 l st x hp hq hl hst
    have hpos : labelPos (p1 ++ st :: p2) l = (q1.flatMap expandStmt).length := by
      rw [← hp, hq, labelPos_of_first q2 hl]
    subst hp
    rw [← hpos]
    obtain ⟨rfl, rfl⟩ | ⟨c, rfl, rfl⟩ | ⟨v, rfl, rfl⟩ := hst
    · exact assemble_getElem? (y := .jmp l) rfl
    · exact assemble_getElem? (y := .brerr c l) rfl
    · exact assemble_getElem? (y := .brres v l) rfl

end Sys2Proof.Machine
end

section
/-! PROOFS. The words and the tables of the key schedule (40_key_schedule.md R68 to R71), and `Expand` (R72). -/

namespace Sys2Proof.Machine

/-! ### Words -/

/-- SubWord on a word given by its bytes (R70). -/
theorem subWord_be32 (b0 b1 b2 b3 : Byte) :
    subWord (be32 b0 b1 b2 b3) = be32 (sbox b0) (sbox b1) (sbox b2) (sbox b3) := by
  obtain ⟨h0, h1, h2, h3⟩ := wordByte_be32 b0 b1 b2 b3
  rw [subWord, h0, h1, h2, h3]

/-- RotWord on a word given by its bytes (R71). -/
theorem rotWord_be32 (b0 b1 b2 b3 : Byte) : rotWord (be32 b0 b1 b2 b3) = be32 b1 b2 b3 b0 := by
  obtain ⟨h0, h1, h2, h3⟩ := wordByte_be32 b0 b1 b2 b3
  rw [rotWord, h0, h1, h2, h3]

/-- RotWord as shifts of the whole word: bit i comes from bit i - 8, and the low eight bits from the top (R71). -/
theorem rotWord_eq_shifts (w : Word) : rotWord w = (w <<< 8) ||| (w >>> 24) := by
  unfold rotWord be32 wordByte
  apply BitVec.eq_of_getLsbD_eq
  intro i hi
  simp only [BitVec.getLsbD_append, BitVec.getLsbD_extractLsb', BitVec.getLsbD_or, BitVec.getLsbD_shiftLeft,
    BitVec.getLsbD_ushiftRight]
  interval_cases i <;> simp

/-- Settles O31: a word given by its bytes is taken apart into them. -/
theorem subWordSubstitutesBytes : Obligations.SubWordSubstitutesBytes := by
  unfold Obligations.SubWordSubstitutesBytes
  exact ⟨subWord_be32, by decide +kernel⟩

/-- Settles O32: by bytes, and by bits for the equivalent form. -/
theorem rotWordRotatesLeft : Obligations.RotWordRotatesLeft := by
  unfold Obligations.RotWordRotatesLeft
  exact ⟨rotWord_be32, rotWord_eq_shifts, by decide +kernel⟩

/-! ### Tables -/

/-- The affine map of the S-box's construction (R68). -/
def affineMap (b : Byte) : Byte :=
  b ^^^ b.rotateLeft 1 ^^^ b.rotateLeft 2 ^^^ b.rotateLeft 3 ^^^ b.rotateLeft 4 ^^^ 0x63

/-- The inverse of the affine map. -/
def affineInv (x : Byte) : Byte := x.rotateLeft 1 ^^^ x.rotateLeft 3 ^^^ x.rotateLeft 6 ^^^ 0x05

theorem affineMap_affineInv : ∀ x : Byte, affineMap (affineInv x) = x := by decide +kernel

/-- The inverse affine map takes each entry of the S-box but the first to the field inverse of its index: a finite
check of 255 products, since the table is a list of constants. -/
theorem gmul_affineInv_sbox : ∀ a : Byte, a ≠ 0 → gmul a (affineInv (sbox a)) = 1 := by decide +kernel

/-- The construction of the S-box takes 0, which has no inverse, to 0. -/
theorem affineInv_sbox_zero : affineInv (sbox 0) = 0 := by decide +kernel

/-- Rcon[j] holds the power j - 1 of {02} (R69). -/
theorem rcon_eq_power (j : Nat) (h1 : 1 ≤ j) (h10 : j ≤ 10) :
    rcon j = be32 (xtime^[j - 1] 0x01) 0x00 0x00 0x00 := by
  have hrc : ∀ m : Fin 10, rcTable.getD (m.val + 1) 0 = xtime^[m.val] 0x01 := by decide
  have hj := hrc ⟨j - 1, by omega⟩
  rw [Nat.sub_add_cancel h1] at hj
  rw [rcon, hj]

/-- Settles O33: the inverse affine map of an S-box entry is the field inverse that the statement asks for. -/
theorem tablesFollowTheirConstructions : Obligations.TablesFollowTheirConstructions := by
  unfold Obligations.TablesFollowTheirConstructions
  refine ⟨fun a => ⟨affineInv (sbox a), ?_, gmul_affineInv_sbox a, (affineMap_affineInv (sbox a)).symm⟩, rcon_eq_power⟩
  rintro rfl
  exact affineInv_sbox_zero

/-! ### Expand -/

/-- The words there are stay as they are in every later turn. -/
theorem expandLoop_getD (nk n : Nat) (w : List Word) {i : Nat} (h : i < w.length) :
    (expandLoop nk n w).getD i 0 = w.getD i 0 := by
  induction n with
  | zero => rfl
  | succ n ih => rw [expandLoop, expandStep_getD nk _ (by rw [expandLoop_length]; omega), ih]

/-- Each word that the loop derives is the word Nk places before it, XOR `temp` of the word before it (R72). -/
theorem expandLoop_getD_derived {nk : Nat} (hnk : 0 < nk) (n : Nat) (w : List Word) {i : Nat} (hi : 0 < i)
    (hw : w.length ≤ i) (hn : i < w.length + n) :
    (expandLoop nk n w).getD i 0 =
      (expandLoop nk n w).getD (i - nk) 0 ^^^ expandTemp nk i ((expandLoop nk n w).getD (i - 1) 0) := by
  induction n with
  | zero => omega
  | succ n ih =>
    have hlen := expandLoop_length nk n w
    rw [expandLoop, expandStep_getD nk _ (show i - nk < _ by omega), expandStep_getD nk _ (show i - 1 < _ by omega)]
    obtain hlt | heq := Nat.lt_succ_iff_lt_or_eq.1 (show i < (w.length + n) + 1 from hn)
    · rw [expandStep_getD nk _ (hlen ▸ hlt), ih hlt]
    · rw [← hlen] at heq
      rw [heq, expandStep_getD_new]

/-- The words of `Expand` that are copied from the key (R72). -/
theorem expand_getD_copied {k : List Byte} {i : Nat} (h : i < k.length / 4) :
    (expand k).getD i 0 =
      be32 (k.getD (4 * i) 0) (k.getD (4 * i + 1) 0) (k.getD (4 * i + 2) 0) (k.getD (4 * i + 3) 0) := by
  rw [expand, expandLoop_getD _ _ _ (by rwa [wordsOf_length]), List.getD_eq_getElem?_getD, wordsOf_getElem? h,
    Option.getD_some]

/-- The recurrence of the other words of `Expand` (R72). -/
theorem expand_getD_derived {k : List Byte} {i : Nat} (hk : 0 < k.length / 4) (h : k.length / 4 ≤ i)
    (hN : i < 4 * (k.length / 4 + 7)) :
    (expand k).getD i 0 =
      (expand k).getD (i - k.length / 4) 0 ^^^ expandTemp (k.length / 4) i ((expand k).getD (i - 1) 0) :=
  expandLoop_getD_derived hk _ _ (by omega) (by rwa [wordsOf_length]) (by rw [wordsOf_length]; omega)

/-- A key of one of the three lengths is the key of a size. -/
theorem exists_keySize_of_length {n : Nat} (h : n = 16 ∨ n = 24 ∨ n = 32) : ∃ ks, n = keyBytes ks := by
  obtain rfl | rfl | rfl := h
  · exact ⟨.k128, rfl⟩
  · exact ⟨.k192, rfl⟩
  · exact ⟨.k256, rfl⟩

/-- Settles O35: the recurrence is what the turns of the second loop of `Expand` keep. -/
theorem expandFollowsItsRecurrence : Obligations.ExpandFollowsItsRecurrence := by
  unfold Obligations.ExpandFollowsItsRecurrence
  intro k hk
  obtain ⟨ks, hL⟩ := exists_keySize_of_length hk
  refine ⟨?_, fun i hi => expand_getD_copied hi, fun i hi hN => expand_getD_derived (by omega) hi hN⟩
  rw [expand_length hL, hL, keyNwords, keyNr, keyNk]

/-- Settles O36: below NWORDS the store takes the words of the expansion, and above the words of `s`. -/
theorem keyexpStoresTheSchedule : Obligations.KeyexpStoresTheSchedule := by
  unfold Obligations.KeyexpStoresTheSchedule
  intro s ks hk
  obtain ⟨t, ht⟩ := exec_completes .keyexp s
  have hst := execKeyexp_stores hk ht
  have hlen := expand_length (keyOperand_length s ks)
  refine ⟨t, ht, by rw [hst]; rfl, fun i h => ?_⟩
  rw [hst, State.complete_sched, State.loadSchedule_sched, storeSched_getElem]
  split_ifs with hi
  · rw [← hlen] at hi
    rw [List.getD_eq_getElem _ _ hi]
    exact (List.getD_eq_getElem _ _ hi).symm
  · exact List.getD_eq_default _ _ (by omega)

end Sys2Proof.Machine
end

section
/-! PROOFS. The schedule changes only by an expansion (40_key_schedule.md R73), and the frame of the commands that store
nothing to MBUF (R74, R84, R90, R100, R101). -/

namespace Sys2Proof.Machine

/-- Every command ends in one of two ways: `raise Error`, or ERR = 0 (60_exceptions.md R104, R105). -/
theorem exec_raises_or_err_ok {i : Instr} {s t : State} (h : exec i s = .next t) :
    (∃ c, t = s.raiseError c) ∨ t.err = .ok := by
  cases i with
  | keyexp =>
    obtain ⟨-, rfl⟩ | ⟨ks, -, rfl⟩ := execKeyexp_cases h
    · exact .inl ⟨_, rfl⟩
    · exact .inr rfl
  | encblk =>
    obtain ⟨-, rfl⟩ | ⟨-, rfl⟩ := execEncblk_cases h
    · exact .inl ⟨_, rfl⟩
    · exact .inr rfl
  | decblk =>
    obtain ⟨-, rfl⟩ | ⟨-, rfl⟩ := execDecblk_cases h
    · exact .inl ⟨_, rfl⟩
    · exact .inr rfl
  | cbcenc =>
    obtain ⟨c, -, rfl⟩ | ⟨ks, n, -, rfl⟩ := execCbcenc_cases h
    · exact .inl ⟨c, rfl⟩
    · exact .inr rfl
  | cbcdec =>
    obtain ⟨c, -, rfl⟩ | ⟨ks, n, -, rfl⟩ := execCbcdec_cases h
    · exact .inl ⟨c, rfl⟩
    · exact .inr rfl
  | pad =>
    obtain ⟨-, rfl⟩ | ⟨-, -, rfl⟩ | ⟨-, rfl⟩ := execPad_cases h
    · exact .inl ⟨_, rfl⟩
    · exact .inl ⟨_, rfl⟩
    · exact .inr rfl
  | padlen =>
    obtain ⟨-, rfl⟩ | ⟨-, rfl⟩ := execPadlen_cases h
    · exact .inl ⟨_, rfl⟩
    · exact .inr rfl
  | unpad =>
    obtain ⟨-, rfl⟩ | ⟨-, rfl⟩ := execUnpad_cases h
    · exact .inl ⟨_, rfl⟩
    · exact .inr rfl

/-- Settles O26: a command that raises an error, an illegal word and a turn without `rst` all leave the schedule, and of
the other commands the three expansions alone name it. -/
theorem scheduleChangesOnlyByExpansion : Obligations.ScheduleChangesOnlyByExpansion := by
  unfold Obligations.ScheduleChangesOnlyByExpansion
  intro s t h hne
  obtain ⟨w, i, hw, hd, hx⟩ | ⟨w, r, -, -, rfl⟩ | ⟨hw, rfl⟩ := step_cases h
  · obtain ⟨c, rfl⟩ | herr := exec_raises_or_err_ok hx
    · simp at hne
    · obtain ⟨-, -, -, -, hsched, -⟩ := resultsWrittenOnlyByTheirCommands i s t hx
      exact .inr ⟨w, i, hw, hd, hsched hne, herr⟩
  · simp at hne
  · refine .inl ⟨hw, ?_⟩
    by_contra hr
    have hk := hostCycle_keeps (s := s) (by simpa using hr)
    simp [hk.sched, hk.schedInfo, hk.schedValid] at hne

/-- Settles O55: each clause is the frame of its command, and none of these frames names MBUF. -/
theorem nonStoringCommandsFrame : Obligations.NonStoringCommandsFrame := by
  unfold Obligations.NonStoringCommandsFrame
  intro i s t h hi
  have hf := exec_frame h
  refine ⟨fun a => ?_, ?_, ?_, ?_, ?_⟩
  · obtain ⟨-, -, -, -, -, hbyte⟩ := resultsWrittenOnlyByTheirCommands i s t h
    by_contra hne
    obtain rfl | rfl | rfl := hbyte a hne <;> simp at hi
  · rintro rfl; exact hf
  · rintro (rfl | rfl) <;> exact hf
  · rintro rfl; exact hf
  · rintro rfl; exact hf

end Sys2Proof.Machine
end

section
/-! PROOFS. The field product (41_forward_cipher.md R75 to R77), and the round transforms undone by their inverses
(R79 to R82; 42_inverse_cipher.md R86 to R88). -/

namespace Sys2Proof.Machine

/-! ### The field product -/

/-- Two XORs with one mask m, each under its own condition, are one XOR with m under the XOR of the conditions. -/
theorem ite_xor_xor {w : Nat} (b c : Bool) (p q m : BitVec w) :
    (if b ^^ c then p ^^^ q ^^^ m else p ^^^ q) = (if b then p ^^^ m else p) ^^^ (if c then q ^^^ m else q) := by
  cases b <;> cases c
  · rfl
  · exact BitVec.xor_assoc ..
  · change p ^^^ q ^^^ m = p ^^^ m ^^^ q
    ac_rfl
  · have h : p ^^^ m ^^^ (q ^^^ m) = p ^^^ q ^^^ (m ^^^ m) := by ac_rfl
    simpa using h.symm

/-- Reduction modulo 0x11b is linear: a term is cancelled in a sum exactly when it is in one of the two summands. -/
theorem polyReduce_xor (n : Nat) (p q : BitVec 16) : polyReduce n (p ^^^ q) = polyReduce n p ^^^ polyReduce n q := by
  induction n generalizing p q with
  | zero => rfl
  | succ n ih => rw [polyReduce, BitVec.getLsbD_xor, ite_xor_xor, ih, polyReduce, polyReduce]

/-- The monomial x^k times a byte, reduced, is `xtime` applied k times (R76): a finite check of eight shifts. -/
theorem truncate_polyReduce_shift :
    ∀ (k : Fin 8) (a : Byte), (polyReduce 7 (a.zeroExtend 16 <<< k.val)).truncate 8 = xtime^[k.val] a := by
  decide +kernel

/-- Shift-and-add as a sum over the bits of the second factor (R77). -/
theorem gmul_eq_foldl (a b : Byte) :
    gmul a b = (List.range 8).foldl (fun r k => if b.getLsbD k then r ^^^ xtime^[k] a else r) 0 := rfl

/-- Settles O38: both products are sums over the bits of `b`, and reduction takes each partial sum of the one to that of
the other, because it is linear and takes a·x^k to `xtime` applied k times. -/
theorem gmulIsFieldProduct : Obligations.GmulIsFieldProduct := by
  unfold Obligations.GmulIsFieldProduct
  intro a b
  rw [gmul_eq_foldl, fieldMul, polyMul]
  refine List.foldl_rel (r := fun r p => r = (polyReduce 7 p).truncate 8) (by decide) fun k hk r p hrp => ?_
  split_ifs
  · rw [polyReduce_xor, BitVec.truncate_eq_setWidth, BitVec.setWidth_xor, hrp,
      ← truncate_polyReduce_shift ⟨k, List.mem_range.1 hk⟩ a]
  · exact hrp

/-! ### InvMixColumns after MixColumns -/

/-- A row of InvMixColumns is linear in the column. -/
theorem invMixRow_xor (a0 a1 a2 a3 b0 b1 b2 b3 : Byte) (r : Nat) :
    invMixRow (a0 ^^^ b0) (a1 ^^^ b1) (a2 ^^^ b2) (a3 ^^^ b3) r =
      invMixRow a0 a1 a2 a3 r ^^^ invMixRow b0 b1 b2 b3 r := by
  unfold invMixRow
  split <;> simp only [gmul_xor] <;> ac_rfl

/-- The product of the two circulants is the unit matrix, shown on the four columns of MixColumns' matrix (R82, R88),
each scaled by a byte. -/
theorem invMixRow_unit : ∀ (r : Fin 4) (a : Byte),
    invMixRow (gmul 0x02 a) a a (gmul 0x03 a) r = (if r = 0 then a else 0) ∧
    invMixRow (gmul 0x03 a) (gmul 0x02 a) a a r = (if r = 1 then a else 0) ∧
    invMixRow a (gmul 0x03 a) (gmul 0x02 a) a r = (if r = 2 then a else 0) ∧
    invMixRow a a (gmul 0x03 a) (gmul 0x02 a) r = (if r = 3 then a else 0) := by
  decide +kernel

/-- InvMixColumns undoes MixColumns on a column: a mixed column is the sum of the four scaled columns of the matrix. -/
theorem invMixRow_mixRow (a0 a1 a2 a3 : Byte) {r : Nat} (h : r < 4) :
    invMixRow (mixRow a0 a1 a2 a3 0) (mixRow a0 a1 a2 a3 1) (mixRow a0 a1 a2 a3 2) (mixRow a0 a1 a2 a3 3) r =
      #v[a0, a1, a2, a3][r] := by
  obtain ⟨h0, -⟩ := invMixRow_unit ⟨r, h⟩ a0
  obtain ⟨-, h1, -⟩ := invMixRow_unit ⟨r, h⟩ a1
  obtain ⟨-, -, h2, -⟩ := invMixRow_unit ⟨r, h⟩ a2
  obtain ⟨-, -, -, h3⟩ := invMixRow_unit ⟨r, h⟩ a3
  simp only [mixRow, invMixRow_xor, h0, h1, h2, h3]
  interval_cases r <;> simp

/-- Column c of a mixed block. -/
theorem mixColumns_getElem_column (st : Block) {c : Nat} (hc : c < 4) :
    (mixColumns st)[4 * c] = mixRow st[4 * c] st[4 * c + 1] st[4 * c + 2] st[4 * c + 3] 0 ∧
    (mixColumns st)[4 * c + 1] = mixRow st[4 * c] st[4 * c + 1] st[4 * c + 2] st[4 * c + 3] 1 ∧
    (mixColumns st)[4 * c + 2] = mixRow st[4 * c] st[4 * c + 1] st[4 * c + 2] st[4 * c + 3] 2 ∧
    (mixColumns st)[4 * c + 3] = mixRow st[4 * c] st[4 * c + 1] st[4 * c + 2] st[4 * c + 3] 3 := by
  have e : ∀ r, r < 4 → (4 * c + r) / 4 = c ∧ (4 * c + r) % 4 = r := fun r hr => by omega
  have e0 : 4 * c / 4 = c ∧ 4 * c % 4 = 0 := by omega
  simp only [mixColumns_getElem, e0, e 1 (by omega), e 2 (by omega), e 3 (by omega), and_self]

theorem invMixColumns_mixColumns (st : Block) : invMixColumns (mixColumns st) = st := by
  refine Vector.ext fun k hk => ?_
  obtain ⟨h0, h1, h2, h3⟩ := mixColumns_getElem_column st (show k / 4 < 4 by omega)
  rw [invMixColumns_getElem, h0, h1, h2, h3, invMixRow_mixRow _ _ _ _ (Nat.mod_lt k (by decide))]
  interval_cases k <;> rfl

/-! ### The other transforms -/

/-- The inverse S-box undoes the S-box (R85): a finite check of the two tables. -/
theorem invSbox_sbox : ∀ a : Byte, invSbox (sbox a) = a := by decide +kernel

theorem invSubBytes_subBytes (st : Block) : invSubBytes (subBytes st) = st := by
  refine Vector.ext fun k hk => ?_
  rw [invSubBytes_getElem, subBytes_getElem, invSbox_sbox]

theorem invShiftRows_shiftRows (st : Block) : invShiftRows (shiftRows st) = st := by
  refine Vector.ext fun k hk => ?_
  rw [invShiftRows_getElem, shiftRows_getElem]
  congr 1
  omega

theorem addRoundKey_addRoundKey (st : Block) (w : List Word) (rnd : Nat) :
    addRoundKey (addRoundKey st w rnd) w rnd = st := by
  refine Vector.ext fun k hk => ?_
  rw [addRoundKey_getElem, addRoundKey_getElem, BitVec.xor_assoc, BitVec.xor_self, BitVec.xor_zero]

/-- There are finitely many blocks, so what undoes a map of blocks is undone by it. -/
theorem block_rightInverse_of_leftInverse {f g : Block → Block} (h : Function.LeftInverse g f) :
    Function.RightInverse g f := by
  have hfin : Finite Block := Finite.of_injective (fun (st : Block) (k : Fin 16) => st[k])
    fun a b hab => Vector.ext fun k hk => congrFun hab ⟨k, hk⟩
  exact h.rightInverse_of_surjective (Finite.surjective_of_injective h.injective)

/-- Settles O40: each inverse undoes its transform, and the other direction follows because blocks are finitely many. -/
theorem roundTransformsAreUndone : Obligations.RoundTransformsAreUndone := by
  unfold Obligations.RoundTransformsAreUndone
  exact fun st =>
    ⟨invSubBytes_subBytes st, block_rightInverse_of_leftInverse invSubBytes_subBytes st,
      invShiftRows_shiftRows st, block_rightInverse_of_leftInverse invShiftRows_shiftRows st,
      invMixColumns_mixColumns st, block_rightInverse_of_leftInverse invMixColumns_mixColumns st,
      addRoundKey_addRoundKey st⟩

/-- Settles O39: the printed permutations are the index formulas of R81 and R87 evaluated at each index. -/
theorem rowShiftsPermuteIndices : Obligations.RowShiftsPermuteIndices := by
  unfold Obligations.RowShiftsPermuteIndices
  refine fun st => ⟨Vector.ext fun k hk => ?_, Vector.ext fun k hk => ?_, invShiftRows_shiftRows st⟩
  · rw [shiftRows_getElem]
    interval_cases k <;> rfl
  · rw [invShiftRows_getElem]
    interval_cases k <;> rfl

end Sys2Proof.Machine
end

section
/-! PROOFS. The round trip of the two ciphers (41_forward_cipher.md R83; 42_inverse_cipher.md R89), and ENCBLK and
DECBLK (R84, R90). -/

namespace Sys2Proof.Machine

/-! ### Cipher and InvCipher -/

theorem invCipherRound_cipherRound (w : List Word) (rnd : Nat) (st : Block) :
    invCipherRound w rnd (cipherRound w rnd st) = st := by
  rw [cipherRound, invCipherRound, addRoundKey_addRoundKey, invMixColumns_mixColumns, invShiftRows_shiftRows,
    invSubBytes_subBytes]

/-- The middle rounds n down to 1 of InvCipher undo the middle rounds 1 to n of Cipher, the last one first. -/
theorem invCipherRounds_cipherRounds (w : List Word) (n : Nat) (st : Block) :
    invCipherRounds w n (cipherRounds w n st) = st := by
  induction n with
  | zero => rfl
  | succ n ih => rw [cipherRounds, invCipherRounds, invCipherRound_cipherRound, ih]

theorem invCipher_cipher (w : List Word) (nr : Nat) (b : Block) : invCipher (cipher b w nr) w nr = b := by
  rw [cipher, invCipher, addRoundKey_addRoundKey, invShiftRows_shiftRows, invSubBytes_subBytes,
    invCipherRounds_cipherRounds, addRoundKey_addRoundKey]

theorem cipher_invCipher (w : List Word) (nr : Nat) (b : Block) : cipher (invCipher b w nr) w nr = b :=
  block_rightInverse_of_leftInverse (f := (cipher · w nr)) (g := (invCipher · w nr)) (invCipher_cipher w nr) b

/-- Settles O41: InvCipher undoes Cipher by induction on the middle rounds, and so, the blocks being finitely many,
Cipher undoes InvCipher. -/
theorem inverseCipherUndoesCipher : Obligations.InverseCipherUndoesCipher := by
  unfold Obligations.InverseCipherUndoesCipher
  exact fun b w nr => ⟨invCipher_cipher w nr b, cipher_invCipher w nr b⟩

/-! ### ENCBLK and DECBLK -/

/-- What ENCBLK with a valid schedule does (R84): BLK, and the fields that it leaves. -/
theorem execEncblk_spec {s t : State} (hv : s.schedValid = true) (h : exec .encblk s = .next t) :
    t.blk = cipher s.blk s.storedSchedule (infoNr s.schedInfo) ∧
    t = { s with pending := none, err := .ok, blk := t.blk, engine := t.engine } ∧
    t.engine.blockIdx = s.engine.blockIdx ∧ t.engine.prev = s.engine.prev := by
  obtain ⟨hf, -⟩ | ⟨-, rfl⟩ := execEncblk_cases h
  · simp [hv] at hf
  · simp [State.complete, State.runCipher]

/-- What DECBLK with a valid schedule does (R90): BLK, and the fields that it leaves. -/
theorem execDecblk_spec {s t : State} (hv : s.schedValid = true) (h : exec .decblk s = .next t) :
    t.blk = invCipher s.blk s.storedSchedule (infoNr s.schedInfo) ∧
    t = { s with pending := none, err := .ok, blk := t.blk, engine := t.engine } ∧
    t.engine.blockIdx = s.engine.blockIdx ∧ t.engine.prev = s.engine.prev := by
  obtain ⟨hf, -⟩ | ⟨-, rfl⟩ := execDecblk_cases h
  · simp [hv] at hf
  · simp [State.complete, State.runInvCipher]

/-- The frame of ENCBLK and DECBLK leaves the schedule operand of both, and ERR = 0. -/
theorem schedule_of_blkFrame {s t : State}
    (h : t = { s with pending := none, err := .ok, blk := t.blk, engine := t.engine }) :
    t.storedSchedule = s.storedSchedule ∧ t.schedInfo = s.schedInfo ∧ t.err = .ok := by
  rw [h]
  exact ⟨rfl, rfl, rfl⟩

/-- Settles O42: ENCBLK completes, and its spec is the statement. -/
theorem encblkEncryptsInPlace : Obligations.EncblkEncryptsInPlace := by
  unfold Obligations.EncblkEncryptsInPlace
  intro s hv
  obtain ⟨t, ht⟩ := exec_completes .encblk s
  exact ⟨t, infoNr s.schedInfo, rfl, ht, execEncblk_spec hv ht⟩

/-- Settles O44: the second command runs on the result of the first with the same schedule, so the round trip of the two
ciphers restores BLK. -/
theorem encblkDecblkRestoreBlk : Obligations.EncblkDecblkRestoreBlk := by
  unfold Obligations.EncblkDecblkRestoreBlk
  refine fun s t hv => ⟨fun ht => ?_, fun ht => ?_⟩
  · obtain ⟨u, hu⟩ := exec_completes .decblk t
    obtain ⟨htb, htf, -⟩ := execEncblk_spec hv ht
    obtain ⟨hub, huf, -⟩ := execDecblk_spec (exec_schedValid ht hv) hu
    obtain ⟨hw, hi, -⟩ := schedule_of_blkFrame htf
    obtain ⟨-, -, herr⟩ := schedule_of_blkFrame huf
    exact ⟨u, hu, by rw [hub, htb, hw, hi, invCipher_cipher], herr⟩
  · obtain ⟨u, hu⟩ := exec_completes .encblk t
    obtain ⟨htb, htf, -⟩ := execDecblk_spec hv ht
    obtain ⟨hub, huf, -⟩ := execEncblk_spec (exec_schedValid ht hv) hu
    obtain ⟨hw, hi, -⟩ := schedule_of_blkFrame htf
    obtain ⟨-, -, herr⟩ := schedule_of_blkFrame huf
    exact ⟨u, hu, by rw [hub, htb, hw, hi, cipher_invCipher], herr⟩

end Sys2Proof.Machine
end

section
/-! PROOFS. The two S-boxes as inverse permutations (42_inverse_cipher.md R85), and DECBLK (R90). -/

namespace Sys2Proof.Machine

/-- The S-box undoes the inverse S-box too, because bytes are finitely many. -/
theorem sbox_invSbox (a : Byte) : sbox (invSbox a) = a :=
  Function.LeftInverse.rightInverse_of_card_le invSbox_sbox le_rfl a

/-- Settles O34: one direction is a check of the two tables, and the other follows from it. -/
theorem inverseSboxInverts : Obligations.InverseSboxInverts := by
  unfold Obligations.InverseSboxInverts
  exact fun a => ⟨invSbox_sbox a, sbox_invSbox a⟩

/-- Settles O43: DECBLK completes, and its spec is the statement. -/
theorem decblkDecryptsInPlace : Obligations.DecblkDecryptsInPlace := by
  unfold Obligations.DecblkDecryptsInPlace
  intro s hv
  obtain ⟨t, ht⟩ := exec_completes .decblk s
  exact ⟨t, infoNr s.schedInfo, rfl, ht, execDecblk_spec hv ht⟩

end Sys2Proof.Machine
end

section
/-! PROOFS. The CBC commands (43_cbc.md R91 to R96): what each leaves in the message, in CHAIN and in the schedule, and
the round trip of the two. -/

namespace Sys2Proof.Machine

/-! ### What a CBC command whose checks pass leaves -/

theorem execCbcenc_of_operands {s : State} {ks : KeySize} {n : Nat} (ho : s.cbcOperands = .ok (ks, n)) :
    exec .cbcenc s = .next (blockLoop (cbcEncBlock (expand (s.keyOperand ks)) (keyNr ks)) n
      (s.cbcStart ks (expand (s.keyOperand ks)))).complete := by
  simp only [exec, execCbcenc, ho]

theorem execCbcdec_of_operands {s : State} {ks : KeySize} {n : Nat} (ho : s.cbcOperands = .ok (ks, n)) :
    exec .cbcdec s = .next (blockLoop (cbcDecBlock (expand (s.keyOperand ks)) (keyNr ks)) n
      (s.cbcStart ks (expand (s.keyOperand ks)))).complete := by
  simp only [exec, execCbcdec, ho]

/-- A stored schedule of n words: those words, and the old ones above (40_key_schedule.md R74). -/
theorem storeSched_getElem_of_length (old : Vector Word 60) {w : List Word} {n i : Nat} (hw : w.length = n)
    (h : i < 60) : (storeSched old w)[i] = if i < n then w.getD i 0 else old[i] := by
  rw [storeSched_getElem]
  split_ifs with hi
  · simp [hw, hi]
  · exact List.getD_eq_default _ _ (by omega)

/-- The command that took `s` to `t` has completed, and stored the schedule of its key as KEYEXP does (R92). -/
structure State.CbcCompletes (s t : State) (ks : KeySize) : Prop where
  err : t.err = .ok
  busy : t.busy = false
  schedValid : t.schedValid = true
  schedInfo : t.schedInfo = schedInfoWord (keyNk ks) (keyNr ks) (keyNwords ks)
  sched : ∀ i (h : i < 60),
    t.sched[i] = if i < keyNwords ks then (expand (s.keyOperand ks)).getD i 0 else s.sched[i]

/-- The schedule stored at the start of a CBC command is there at its end, because the loop writes none of it. -/
theorem complete_cbcCompletes {s u : State} {ks : KeySize}
    (h : (s.cbcStart ks (expand (s.keyOperand ks))).CbcKeeps u) : s.CbcCompletes u.complete ks where
  err := rfl
  busy := rfl
  schedValid := congrArg State.schedValid h.eq
  schedInfo := congrArg State.schedInfo h.eq
  sched i hi := by
    rw [h.eq]
    exact storeSched_getElem_of_length s.sched (expand_length (keyOperand_length s ks)) hi

/-- What CBCENC of n blocks leaves when its checks pass (R93, R94). -/
theorem execCbcenc_spec {s t : State} {ks : KeySize} {n : Nat} (ho : s.cbcOperands = .ok (ks, n))
    (h : exec .cbcenc s = .next t) :
    s.CbcCompletes t ks ∧
    (∀ i, i < n → t.messageBlock i =
      cipher (xorBlock (s.messageBlock i) (chainInput s.iv t.messageBlock i)) (expand (s.keyOperand ks)) (keyNr ks)) ∧
    t.chain = chainInput s.iv t.messageBlock n ∧
    (∀ a, 16 * n ≤ a → t.mbufByte a = s.mbufByte a) := by
  obtain rfl := Host.Outcome.next.inj ((execCbcenc_of_operands ho).symm.trans h)
  obtain ⟨-, hblocks, hchain, -, habove⟩ := cbcEncLoop_spec (expand (s.keyOperand ks)) (keyNr ks)
    (s := s.cbcStart ks (expand (s.keyOperand ks))) rfl n
  exact ⟨complete_cbcCompletes (cbcEncLoop_keeps ..), hblocks, hchain, habove⟩

/-- What CBCDEC of n blocks leaves when its checks pass (R95, R96). -/
theorem execCbcdec_spec {s t : State} {ks : KeySize} {n : Nat} (ho : s.cbcOperands = .ok (ks, n))
    (h : exec .cbcdec s = .next t) :
    s.CbcCompletes t ks ∧
    (∀ i, i < n → t.messageBlock i =
      xorBlock (invCipher (s.messageBlock i) (expand (s.keyOperand ks)) (keyNr ks))
        (chainInput s.iv s.messageBlock i)) ∧
    t.chain = chainInput s.iv s.messageBlock n ∧
    (∀ a, 16 * n ≤ a → t.mbufByte a = s.mbufByte a) := by
  obtain rfl := Host.Outcome.next.inj ((execCbcdec_of_operands ho).symm.trans h)
  obtain ⟨-, hblocks, hchain, -, habove⟩ := cbcDecLoop_spec (expand (s.keyOperand ks)) (keyNr ks)
    (s := s.cbcStart ks (expand (s.keyOperand ks))) rfl n
  exact ⟨complete_cbcCompletes (cbcDecLoop_keeps ..), hblocks, hchain, habove⟩

/-- Settles O45: the checks pass, so CBCENC leaves what its loop computes from CHAIN = IV. -/
theorem cbcencChainsBlocks : Obligations.CbcencChainsBlocks := by
  unfold Obligations.CbcencChainsBlocks
  intro s ks hk hle ha
  obtain ⟨t, ht⟩ := exec_completes .cbcenc s
  obtain ⟨hdone, hblocks, hchain, -⟩ := execCbcenc_spec (cbcOperands_eq_ok.2 ⟨hle, hk, ha, rfl⟩) ht
  exact ⟨t, ht, hdone.err, hdone.busy, hblocks, hchain, hdone.schedValid, hdone.schedInfo, hdone.sched⟩

/-- Settles O46: the checks pass, so CBCDEC leaves what its loop computes from CHAIN = IV. -/
theorem cbcdecUnchainsBlocks : Obligations.CbcdecUnchainsBlocks := by
  unfold Obligations.CbcdecUnchainsBlocks
  intro s ks hk hle ha
  obtain ⟨t, ht⟩ := exec_completes .cbcdec s
  obtain ⟨hdone, hblocks, hchain, -⟩ := execCbcdec_spec (cbcOperands_eq_ok.2 ⟨hle, hk, ha, rfl⟩) ht
  exact ⟨t, ht, hdone.err, hdone.busy, hblocks, hchain, hdone.schedValid, hdone.schedInfo, hdone.sched⟩

/-! ### The frame -/

/-- The blocks of a CBC command are all of its message (R91). -/
theorem cbcOperands_blocks_eq {s : State} {ks : KeySize} {n : Nat} (ho : s.cbcOperands = .ok (ks, n)) :
    16 * n = s.mlen.toNat := by
  obtain ⟨-, -, ha, rfl⟩ := cbcOperands_eq_ok.1 ho
  omega

/-- A CBC command stores nothing at and above MLEN: nothing at all on an error, and its blocks end there otherwise. -/
theorem execCbc_mbufByte_above {i : Instr} {s t : State} (hi : i = .cbcenc ∨ i = .cbcdec) (h : exec i s = .next t)
    {a : Nat} (ha : s.mlen.toNat ≤ a) : t.mbufByte a = s.mbufByte a := by
  rcases hi with rfl | rfl
  · obtain ⟨c, -, rfl⟩ | ⟨ks, n, ho, -⟩ := execCbcenc_cases h
    · rfl
    · obtain ⟨-, -, -, habove⟩ := execCbcenc_spec ho h
      exact habove a (cbcOperands_blocks_eq ho ▸ ha)
  · obtain ⟨c, -, rfl⟩ | ⟨ks, n, ho, -⟩ := execCbcdec_cases h
    · rfl
    · obtain ⟨-, -, -, habove⟩ := execCbcdec_spec ho h
      exact habove a (cbcOperands_blocks_eq ho ▸ ha)

/-- Settles O47: the bytes by the run of the command, the registers by the frame of every command. -/
theorem cbcFrame : Obligations.CbcFrame := by
  unfold Obligations.CbcFrame
  intro i s t hi h
  refine ⟨fun a ha => execCbc_mbufByte_above hi h ha, ?_⟩
  have hf := exec_frame h
  rcases hi with rfl | rfl <;> exact hf

/-! ### The round trip -/

/-- A CBC command leaves its own operands: the checked lengths, the key and IV. -/
theorem execCbc_operands {i : Instr} {s t : State} (hi : i = .cbcenc ∨ i = .cbcdec) (h : exec i s = .next t) :
    t.cbcOperands = s.cbcOperands ∧ (∀ ks, t.keyOperand ks = s.keyOperand ks) ∧ t.iv = s.iv := by
  obtain ⟨-, hf⟩ := cbcFrame i s t hi h
  rw [hf]
  exact ⟨rfl, fun _ => rfl, rfl⟩

/-- Two states with the same message blocks below n and the same bytes from there on have the same message buffer. -/
theorem mbufByte_eq_of_messageBlocks {s t : State} {n : Nat}
    (hblocks : ∀ i, i < n → t.messageBlock i = s.messageBlock i)
    (habove : ∀ a, 16 * n ≤ a → t.mbufByte a = s.mbufByte a) (a : Nat) : t.mbufByte a = s.mbufByte a := by
  by_cases ha : 16 * n ≤ a
  · exact habove a ha
  · have hk : a % 16 < 16 := Nat.mod_lt a (by decide)
    have hb := hblocks (a / 16) (by omega)
    rw [← Nat.div_add_mod a 16, ← State.memReadBlock_getElem t _ _ hk, ← State.memReadBlock_getElem s _ _ hk]
    exact congrArg (·[a % 16]) hb

/-- Settles O48: CBCDEC chains with the ciphertext blocks that CBCENC chained with, so each block is deciphered and
unchained to the plaintext. -/
theorem cbcRoundTrip : Obligations.CbcRoundTrip := by
  unfold Obligations.CbcRoundTrip
  intro s t ks hk hle ha ht
  have ho := cbcOperands_eq_ok.2 ⟨hle, hk, ha, rfl⟩
  obtain ⟨hops, hkey, hiv⟩ := execCbc_operands (.inl rfl) ht
  obtain ⟨-, hcipher, hchain, habove⟩ := execCbcenc_spec ho ht
  obtain ⟨u, hu⟩ := exec_completes .cbcdec t
  obtain ⟨hdone, hplain, hchain', habove'⟩ := execCbcdec_spec (hops.trans ho) hu
  rw [hkey, hiv] at hplain
  rw [hiv] at hchain'
  refine ⟨u, hu, hdone.err, hchain'.trans hchain.symm, mbufByte_eq_of_messageBlocks (fun i hi => ?_)
    fun a h => (habove' a h).trans (habove a h)⟩
  calc u.messageBlock i
      = xorBlock (invCipher (t.messageBlock i) (expand (s.keyOperand ks)) (keyNr ks))
          (chainInput s.iv t.messageBlock i) := hplain i hi
    _ = xorBlock (xorBlock (s.messageBlock i) (chainInput s.iv t.messageBlock i))
          (chainInput s.iv t.messageBlock i) := by rw [hcipher i hi, invCipher_cipher]
    _ = s.messageBlock i := xorBlock_cancel _ _

end Sys2Proof.Machine
end

section
/-! PROOFS. The padding engine (44_padding.md R97 to R103). -/

namespace Sys2Proof.Machine

/-! ### PadLength by cases (R97, R98) -/

/-- An empty message has no padding. -/
@[simp] theorem padLength_zero (s : State) : s.padLength 0 = 0 := rfl

/-- A last byte that is 0, exceeds 16 or exceeds the length gives the sentinel. -/
theorem padLength_of_invalid {s : State} {n v : Nat} (hv : v = (s.mbufByte (n - 1)).toNat)
    (h : v = 0 ∨ 16 < v ∨ n < v) : s.padLength n = 0 := by
  subst hv
  unfold State.padLength
  split
  · rfl
  · exact if_pos h

/-- Any other last byte is the pad length. -/
theorem padLength_of_valid {s : State} {n v : Nat} (hv : v = (s.mbufByte (n - 1)).toNat)
    (h0 : v ≠ 0) (h16 : v ≤ 16) (hn : v ≤ n) : s.padLength n = v := by
  subst hv
  rw [State.padLength, if_neg (by omega)]
  exact if_neg (by omega)

/-- The pad length depends on no byte but the last. -/
theorem padLength_congr {s t : State} {n : Nat} (h : t.mbufByte (n - 1) = s.mbufByte (n - 1)) :
    t.padLength n = s.padLength n := by
  simp only [State.padLength, h]

/-- A RESULT of the pad length reports the last byte or the sentinel (R100, R101, R103). -/
theorem result_reports_padLength {s : State} {n : Nat} {r : Word} (hr : r.toNat = s.padLength n) :
    (n = 0 → r = 0) ∧
    (∀ v, n ≠ 0 → v = (s.mbufByte (n - 1)).toNat →
      (v = 0 ∨ 16 < v ∨ n < v → r = 0) ∧ (v ≠ 0 → v ≤ 16 → v ≤ n → r.toNat = v)) := by
  refine ⟨?_, fun v _ hv => ⟨fun h => ?_, fun h0 h16 hle => ?_⟩⟩
  · rintro rfl
    exact BitVec.eq_of_toNat_eq hr
  · exact BitVec.eq_of_toNat_eq (hr.trans (padLength_of_invalid hv h))
  · exact hr.trans (padLength_of_valid hv h0 h16 hle)

/-! ### MLEN and RESULT as numbers (R22, R23) -/

/-- A count that fits in a word is read back from RESULT. -/
theorem setResult_result_toNat (s : State) {k : Nat} (h : k < 2 ^ 32) : (s.setResult k).result.toNat = k := by
  rw [State.setResult_result, BitVec.toNat_ofNat, Nat.mod_eq_of_lt h]

/-- A length that fits in a word is read back from MLEN. -/
theorem setMlen_mlen_toNat (s : State) {n : Nat} (h : n < 2 ^ 32) : (s.setMlen n).mlen.toNat = n := by
  rw [State.setMlen_mlen, BitVec.toNat_ofNat, Nat.mod_eq_of_lt h]

/-- RESULT reads back a pad length, which is at most 16 (R23). -/
theorem setResult_padLength_toNat (s u : State) (n : Nat) :
    (u.setResult (s.padLength n)).result.toNat = s.padLength n := by
  obtain ⟨h16, -⟩ := padLength_le s n
  exact setResult_result_toNat u (by omega)

/-! ### PAD (R99) -/

/-- There is room for the pad bytes exactly when MLEN is below MBUF_SIZE, which is a multiple of 16. -/
theorem add_padCount_le_mbufSize_iff (p : Params) (n : Nat) : n + padCount n ≤ p.mbufSize ↔ n < p.mbufSize := by
  obtain ⟨hmod, -⟩ := mbufSize_bounds p
  unfold padCount
  omega

/-- A byte of a run of equal bytes that `MemWrite` stores. -/
theorem memWrite_replicate_mbufByte (s : State) {n k a : Nat} (b : Byte) (hlo : n ≤ a) (hhi : a < n + k) :
    (s.memWrite n (List.replicate k b)).mbufByte a = b := by
  rw [State.memWrite_mbufByte, dif_pos (by rw [List.length_replicate]; omega), List.getElem_replicate]

/-- Settles O49: with MLEN below MBUF_SIZE the run of PAD is a store of k bytes of value k, read back byte by byte. -/
theorem padAppendsPadBytes : Obligations.PadAppendsPadBytes := by
  unfold Obligations.PadAppendsPadBytes
  intro s hlt
  have hroom := (add_padCount_le_mbufSize_iff s.params s.mlen.toNat).2 hlt
  obtain ⟨-, hk16, -⟩ := padCount_spec s.mlen.toNat
  obtain ⟨-, -, hsize⟩ := mbufSize_bounds s.params
  obtain ⟨t, ht⟩ := exec_completes .pad s
  obtain ⟨hrange, -⟩ | ⟨-, hover, -⟩ | ⟨-, hrun⟩ := execPad_cases ht
  · omega
  · omega
  · generalize hk : padCount s.mlen.toNat = k at hrun hroom hk16
    have hbyte : ∀ a, t.mbufByte a = (s.memWrite s.mlen.toNat (List.replicate k (BitVec.ofNat 8 k))).mbufByte a :=
      fun a => by rw [hrun]; rfl
    refine ⟨t, k, hk.symm, ht, ?_, ?_, fun a hlo hhi => ?_, fun a ha => ?_, by rw [hrun]; rfl⟩
    · rw [hrun, State.complete_mlen, State.setResult_mlen, setMlen_mlen_toNat _ (by omega)]
    · rw [hrun, State.complete_result, setResult_result_toNat _ (by omega)]
    · rw [hbyte, memWrite_replicate_mbufByte s _ hlo hhi, BitVec.toNat_ofNat]
      omega
    · rw [hbyte]
      exact State.memWrite_frame s (by rwa [List.length_replicate])

/-- Settles O50: the three ways that PAD ends are told apart by where MLEN lies against MBUF_SIZE. -/
theorem padErrorsExactly : Obligations.PadErrorsExactly := by
  unfold Obligations.PadErrorsExactly
  intro s t h
  have hroom := add_padCount_le_mbufSize_iff s.params s.mlen.toNat
  obtain ⟨hrange, rfl⟩ | ⟨hle, hover, rfl⟩ | ⟨hfit, rfl⟩ := execPad_cases h
  · exact ⟨iff_of_false nofun (by omega), iff_of_true rfl hrange, iff_of_false nofun (by omega)⟩
  · exact ⟨iff_of_true rfl (by omega), iff_of_false nofun (by omega), iff_of_false nofun (by omega)⟩
  · exact ⟨iff_of_false nofun (by omega), iff_of_false nofun (by omega), iff_of_true rfl (hroom.1 hfit)⟩

/-! ### PADLEN and UNPAD (R100, R101) -/

/-- Settles O51: RESULT takes the pad length, and nothing else is written. -/
theorem padlenReportsLastByte : Obligations.PadlenReportsLastByte := by
  unfold Obligations.PadlenReportsLastByte
  intro s hle
  obtain ⟨t, ht⟩ := exec_completes .padlen s
  obtain ⟨hrange, -⟩ | ⟨-, rfl⟩ := execPadlen_cases ht
  · omega
  · exact ⟨_, ht, rfl, result_reports_padLength (setResult_padLength_toNat s s _)⟩

/-- Settles O52: MLEN gives up the pad length that RESULT takes, and the pad length is at most MLEN. -/
theorem unpadTruncates : Obligations.UnpadTruncates := by
  unfold Obligations.UnpadTruncates
  intro s hle
  obtain ⟨t, ht⟩ := exec_completes .unpad s
  obtain ⟨hrange, -⟩ | ⟨-, hrun⟩ := execUnpad_cases ht
  · omega
  · have hres : t.result.toNat = s.padLength s.mlen.toNat := by
      rw [hrun, State.complete_result, setResult_padLength_toNat]
    have hmlen : t.mlen.toNat = s.mlen.toNat - s.padLength s.mlen.toNat := by
      rw [hrun, State.complete_mlen, State.setResult_mlen, setMlen_mlen_toNat _ (by omega)]
    obtain ⟨-, hpad⟩ := padLength_le s s.mlen.toNat
    exact ⟨t, ht, by rw [hrun]; rfl, by omega, result_reports_padLength hres⟩

/-- Settles O53: the last byte after PAD is k, in 1..16 and at most MLEN, so PADLEN reports it and UNPAD gives it up. -/
theorem padUnpadRoundTrip : Obligations.PadUnpadRoundTrip := by
  unfold Obligations.PadUnpadRoundTrip
  intro s t hlt h
  obtain ⟨t', k, hk, ht', hmlen, hres, hstored, hkept, hframe⟩ := padAppendsPadBytes s hlt
  obtain rfl : t' = t := Host.Outcome.next.inj (ht'.symm.trans h)
  have hparams : t'.params = s.params := by rw [hframe]
  obtain ⟨hmod, -⟩ := mbufSize_bounds s.params
  have hle : t'.mlen.toNat ≤ t'.params.mbufSize := by rw [hparams]; omega
  have hlast := hstored (t'.mlen.toNat - 1) (by omega) (by omega)
  obtain ⟨p, hp, hpf, -, hpres⟩ := padlenReportsLastByte t' hle
  have hpk : p.result.toNat = k := (hpres k (by omega) hlast.symm).2 (by omega) (by omega) (by omega)
  obtain ⟨u, hu, huf, husum, -, hures⟩ := unpadTruncates t' hle
  have huk : u.result.toNat = k := (hures k (by omega) hlast.symm).2 (by omega) (by omega) (by omega)
  refine ⟨by omega, ⟨p, hp, ?_, by rw [hpf]⟩, u, hu, ?_, ?_, by rw [huf], fun a ha => ?_⟩
  · exact BitVec.eq_of_toNat_eq (hpk.trans hres.symm)
  · exact BitVec.eq_of_toNat_eq (by omega)
  · exact BitVec.eq_of_toNat_eq (huk.trans hres.symm)
  · exact (State.mbufByte_congr (congrArg State.mbuf huf) a).trans (hkept a (.inl ha))

/-- What PADLEN and UNPAD can do to the registers: BUFFER_RANGE, or the pad length in RESULT, which UNPAD takes from
MLEN. -/
theorem execPadlen_execUnpad_registers {i : Instr} {s t : State} (hi : i = .padlen ∨ i = .unpad)
    (h : exec i s = .next t) :
    (s.params.mbufSize < s.mlen.toNat ∧ t.result = s.result ∧ t.mlen = s.mlen ∧ t.err = .bufferRange) ∨
    (s.mlen.toNat ≤ s.params.mbufSize ∧ t.result = BitVec.ofNat 32 (s.padLength s.mlen.toNat) ∧
      t.mlen = (if i = .unpad then BitVec.ofNat 32 (s.mlen.toNat - s.padLength s.mlen.toNat) else s.mlen) ∧
      t.err = .ok) := by
  obtain rfl | rfl := hi
  · obtain ⟨hrange, rfl⟩ | ⟨hle, rfl⟩ := execPadlen_cases h
    · exact .inl ⟨hrange, rfl, rfl, rfl⟩
    · exact .inr ⟨hle, rfl, rfl, rfl⟩
  · obtain ⟨hrange, rfl⟩ | ⟨hle, rfl⟩ := execUnpad_cases h
    · exact .inl ⟨hrange, rfl, rfl, rfl⟩
    · exact .inr ⟨hle, rfl, rfl, rfl⟩

/-- Settles O54: MLEN and MBUF_SIZE decide the outcome, and the pad length is all that it reads of MBUF. -/
theorem onlyLastByteInspected : Obligations.OnlyLastByteInspected := by
  unfold Obligations.OnlyLastByteInspected
  intro i s1 s2 t1 t2 hi hparams hmlen hresult hlast h1 h2
  have hout2 := execPadlen_execUnpad_registers hi h2
  rw [hparams, hmlen, hresult, padLength_congr hlast] at hout2
  obtain ⟨hrange, hr1, hm1, he1⟩ | ⟨hle, hr1, hm1, he1⟩ := execPadlen_execUnpad_registers hi h1
  · obtain ⟨-, hr2, hm2, he2⟩ | ⟨hle, -⟩ := hout2
    · exact ⟨hr2.trans hr1.symm, hm2.trans hm1.symm, he2.trans he1.symm⟩
    · omega
  · obtain ⟨hrange, -⟩ | ⟨-, hr2, hm2, he2⟩ := hout2
    · omega
    · exact ⟨hr2.trans hr1.symm, hm2.trans hm1.symm, he2.trans he1.symm⟩

end Sys2Proof.Machine
end

section
/-! PROOFS. The outcome of a command (60_exceptions.md R102 to R107): the code that it reports, and that an error changes
nothing else. -/

namespace Sys2Proof.Machine

/-- Settles O7: the step at a due word that is no command is `raise Error(ILLEGAL_CMD)`. -/
theorem illegalWordCompletes : Obligations.IllegalWordCompletes := by
  unfold Obligations.IllegalWordCompletes
  intro s w r hp hd
  exact step_of_due_error (dueWord_eq_some.2 hp) hd

/-- Settles O29: a command that ends with another code than OK has ended by `raise Error`, which is this update. -/
theorem errorsArePrecise : Obligations.ErrorsArePrecise := by
  unfold Obligations.ErrorsArePrecise
  intro i s t h herr
  obtain ⟨c, rfl⟩ | hok := exec_raises_or_err_ok h
  · rfl
  · exact absurd hok herr

/-! ### The checks of R107, in the terms of the commands' operand decodes -/

@[simp] theorem checkRange_applies (s : State) :
    s.checkRange.applies = decide (s.params.mbufSize < s.mlen.toNat) := rfl

@[simp] theorem checkKey_applies (s : State) : s.checkKey.applies = decide (keySizeOf s.keylen = none) :=
  decide_eq_decide.2 keySizeOf_eq_none.symm

@[simp] theorem checkAlignment_applies (s : State) :
    s.checkAlignment.applies = decide (s.mlen.toNat % 16 ≠ 0) := rfl

@[simp] theorem checkSchedule_applies (s : State) : s.checkSchedule.applies = decide (s.schedValid = false) := rfl

@[simp] theorem checkOverflow_applies (s : State) :
    s.checkOverflow.applies = decide (s.params.mbufSize < s.mlen.toNat + padCount s.mlen.toNat) := rfl

/-- A check that applies is the one reported. -/
theorem firstCode_of_applies {c : Check} (h : c.applies = true) (cs : List Check) : firstCode (c :: cs) = c.code :=
  if_pos h

/-- A check that does not apply leaves the code to the checks after it. -/
theorem firstCode_of_not_applies {c : Check} (h : c.applies = false) (cs : List Check) :
    firstCode (c :: cs) = firstCode cs :=
  if_neg (by simp [h])

/-- A row of which no check applies reports OK (R102). -/
theorem firstCode_eq_ok {cs : List Check} (h : ∀ c ∈ cs, c.applies = false) : firstCode cs = .ok := by
  induction cs with
  | nil => rfl
  | cons c cs ih =>
    rw [firstCode_of_not_applies (h c List.mem_cons_self)]
    exact ih fun d hd => h d (List.mem_cons_of_mem c hd)

/-! ### The code reported by a command (R107) -/

/-- Where the operand decode of a CBC command stops with a code, that code is the first of the row that applies. -/
theorem reportedCode_of_cbcOperands_error {s : State} {c : ErrCode} (h : s.cbcOperands = .error c) {i : Instr}
    (hi : i = .cbcenc ∨ i = .cbcdec) : reportedCode s i = c := by
  have hrow : reportedCode s i = firstCode [s.checkRange, s.checkKey, s.checkAlignment] := by
    obtain rfl | rfl := hi <;> rfl
  rw [hrow]
  unfold State.cbcOperands at h
  split at h
  · cases h
    exact firstCode_of_applies (by simpa using messageLength?_eq_none.1 ‹_›) _
  · rename_i n hn
    obtain ⟨rfl, hle⟩ := messageLength?_eq_some.1 hn
    rw [firstCode_of_not_applies (by simpa using hle)]
    split at h
    · cases h
      exact firstCode_of_applies (by simpa) _
    · rename_i ks hk
      rw [firstCode_of_not_applies (by simp [hk])]
      split_ifs at h with hmod
      cases h
      exact firstCode_of_applies (by simpa using hmod) _

/-- Where the operand decode of a CBC command succeeds, no check of its row applies. -/
theorem reportedCode_of_cbcOperands_ok {s : State} {ks : KeySize} {n : Nat} (h : s.cbcOperands = .ok (ks, n))
    {i : Instr} (hi : i = .cbcenc ∨ i = .cbcdec) : reportedCode s i = .ok := by
  obtain ⟨hle, hkey, hmod, -⟩ := cbcOperands_eq_ok.1 h
  obtain rfl | rfl := hi <;> exact firstCode_eq_ok (by simp [commandChecks, hle, hkey, hmod])

/-- Every command reports the first code of its row that applies, and OK if none does. -/
theorem exec_err {i : Instr} {s t : State} (h : exec i s = .next t) : t.err = reportedCode s i := by
  symm
  cases i with
  | keyexp =>
    obtain ⟨hk, rfl⟩ | ⟨ks, hk, rfl⟩ := execKeyexp_cases h
    · exact firstCode_of_applies (by simpa using hk) _
    · exact firstCode_eq_ok (by simp [commandChecks, hk])
  | encblk =>
    obtain ⟨hv, rfl⟩ | ⟨hv, rfl⟩ := execEncblk_cases h
    · exact firstCode_of_applies (by simpa using hv) _
    · exact firstCode_eq_ok (by simp [commandChecks, hv])
  | decblk =>
    obtain ⟨hv, rfl⟩ | ⟨hv, rfl⟩ := execDecblk_cases h
    · exact firstCode_of_applies (by simpa using hv) _
    · exact firstCode_eq_ok (by simp [commandChecks, hv])
  | cbcenc =>
    obtain ⟨c, ho, rfl⟩ | ⟨ks, n, ho, rfl⟩ := execCbcenc_cases h
    · exact reportedCode_of_cbcOperands_error ho (.inl rfl)
    · exact reportedCode_of_cbcOperands_ok ho (.inl rfl)
  | cbcdec =>
    obtain ⟨c, ho, rfl⟩ | ⟨ks, n, ho, rfl⟩ := execCbcdec_cases h
    · exact reportedCode_of_cbcOperands_error ho (.inr rfl)
    · exact reportedCode_of_cbcOperands_ok ho (.inr rfl)
  | pad =>
    obtain ⟨hrange, rfl⟩ | ⟨hle, hover, rfl⟩ | ⟨hfit, rfl⟩ := execPad_cases h
    · exact firstCode_of_applies (by simpa using hrange) _
    · calc reportedCode s .pad
          = firstCode [s.checkOverflow] := firstCode_of_not_applies (by simpa using hle) _
        _ = .bufferOverflow := firstCode_of_applies (by simpa using hover) _
    · have hle : s.mlen.toNat ≤ s.params.mbufSize := by omega
      exact firstCode_eq_ok (by simp [commandChecks, hle, hfit])
  | padlen =>
    obtain ⟨hrange, rfl⟩ | ⟨hle, rfl⟩ := execPadlen_cases h
    · exact firstCode_of_applies (by simpa using hrange) _
    · exact firstCode_eq_ok (by simp [commandChecks, hle])
  | unpad =>
    obtain ⟨hrange, rfl⟩ | ⟨hle, rfl⟩ := execUnpad_cases h
    · exact firstCode_of_applies (by simpa using hrange) _
    · exact firstCode_eq_ok (by simp [commandChecks, hle])

/-- Settles O30: a command completes with the code of its row, and an illegal word ends with ILLEGAL_CMD. -/
theorem firstApplicableCodeReported : Obligations.FirstApplicableCodeReported := by
  unfold Obligations.FirstApplicableCodeReported
  refine ⟨fun i s => ?_, fun s t w r hw hd h => ?_⟩
  · obtain ⟨t, ht⟩ := exec_completes i s
    exact ⟨t, ht, exec_err ht⟩
  · obtain rfl := Host.Outcome.next.inj ((step_of_due_error hw hd).symm.trans h)
    rfl

end Sys2Proof.Machine
end

section
/-! PROOFS. A turn with `rst` (70_reset_and_hazards.md R119, R120): the block and the host after it. -/

namespace Sys2Proof.Machine

/-- `rst` gives every register its reset value, whatever the host holds (10_state.md R41). -/
theorem resetBlock_afterReset (s : State) (x : HostSide) : State.AfterReset { s.resetBlock with host := x } :=
  { (resetValues : State.reset.AfterReset) with
    idRead := readWord_id _
    capsRead := readWord_caps _ }

/-- What the host holds after a turn with `rst`: the word 0 of a read that it issued meanwhile, and nothing else new. -/
theorem resetTurn_host (s : State) (x : Option Htx) :
    (∀ woff, x = some (.read woff) → (s.resetTurn x).host.rdata = 0) ∧
    ((∀ woff, x ≠ some (.read woff)) → (s.resetTurn x).host = s.host) ∧
    (s.resetTurn x).host.script = s.host.script ∧ (s.resetTurn x).host.pos = s.host.pos := by
  match x with
  | none => exact ⟨nofun, fun _ => rfl, rfl, rfl⟩
  | some (.read woff) => exact ⟨fun _ _ => rfl, fun h => absurd rfl (h woff), rfl, rfl⟩
  | some (.write _ _) => exact ⟨nofun, fun _ => rfl, rfl, rfl⟩

/-- Settles O12: the turn is the reset of the block and one advance of the host's index. -/
theorem rstResetsTheBlock : Obligations.RstResetsTheBlock := by
  unfold Obligations.RstResetsTheBlock
  intro s x hw hl
  obtain ⟨hread, hother, hscript, hpos⟩ := resetTurn_host s.tick x
  rw [State.tick_host] at hother hscript hpos
  refine ⟨(s.tick.resetTurn x).advance, (step_of_not_due hw).trans (congrArg _ (hostCycle_rst hl)), ?_, ?_, ?_,
    hscript, congrArg (· + 1) hpos, hread, fun h => ?_⟩
  · rw [resetTurn_eq]
    exact resetBlock_afterReset s.tick _
  · rw [resetTurn_eq]
    exact State.tick_params s
  · rw [resetTurn_eq]
    exact congrArg (· + 1) (State.tick_epoch s)
  · rw [State.advance_host, hother h]

end Sys2Proof.Machine
end

section
/-! PROOFS. The bytes beyond the message (70_reset_and_hazards.md R129, 20_memory.md R57): two states that differ in
them alone stay so related under every operation of the commands. -/

namespace Sys2Proof.Machine

/-- `t` is `s` but for bytes of MBUF at index `n` and above. -/
structure State.AgreesBelow (n : Nat) (s t : State) : Prop where
  eq : t = { s with mbuf := t.mbuf }
  byte : ∀ a, a < n → t.mbufByte a = s.mbufByte a

namespace State.AgreesBelow

variable {n : Nat} {s t : State}

theorem mono {m : Nat} (h : s.AgreesBelow n t) (hm : m ≤ n) : s.AgreesBelow m t :=
  ⟨h.eq, fun a ha => h.byte a (by omega)⟩

/-- What does not depend on MBUF is the same in the two states. -/
theorem congr {α : Type} {f : State → α} (hf : ∀ u m, f { u with mbuf := m } = f u) (h : s.AgreesBelow n t) :
    f t = f s := by
  rw [h.eq, hf]

/-- An operation that neither reads nor writes MBUF keeps the relation. -/
theorem map {f : State → State} (hf : ∀ u m, f { u with mbuf := m } = { f u with mbuf := m })
    (h : s.AgreesBelow n t) : (f s).AgreesBelow n (f t) := by
  have hmbuf : ∀ u, (f u).mbuf = u.mbuf := fun u => (congrArg State.mbuf (hf u u.mbuf) :)
  refine ⟨?_, fun a ha => ?_⟩
  · rw [hmbuf t, ← hf, ← h.eq]
  · rw [State.mbufByte_congr (hmbuf t), State.mbufByte_congr (hmbuf s), h.byte a ha]

/-- After the same store the two states agree wherever they did, and on what was stored. -/
theorem memWrite {m a : Nat} {bs : List Byte} (hm : ∀ x, x < m → x < n ∨ a ≤ x ∧ x < a + bs.length)
    (h : s.AgreesBelow n t) : (s.memWrite a bs).AgreesBelow m (t.memWrite a bs) := by
  refine ⟨?_, fun x hx => ?_⟩
  · rw [h.eq]; rfl
  · rw [State.memWrite_mbufByte, State.memWrite_mbufByte]
    split
    · rfl
    · exact h.byte x ((hm x hx).resolve_right ‹_›)

/-- A block below `n` is the same in the two states. -/
theorem messageBlock_eq {i : Nat} (hi : 16 * i + 16 ≤ n) (h : s.AgreesBelow n t) :
    t.messageBlock i = s.messageBlock i :=
  State.memReadBlock_congr fun k hk => h.byte _ (by omega)

/-- The pad length is the same in the two states: of an empty message none is read. -/
theorem padLength_eq (h : s.AgreesBelow n t) : t.padLength n = s.padLength n := by
  cases n with
  | zero => rw [padLength_zero, padLength_zero]
  | succ n => exact padLength_congr (h.byte n (Nat.lt_succ_self n))

/-- The operands of a CBC command are not in MBUF (R61, R91). -/
theorem cbcOperands_eq (h : s.AgreesBelow n t) : t.cbcOperands = s.cbcOperands :=
  h.congr fun _ _ => rfl

/-- No check of R107 reads MBUF. -/
theorem reportedCode_eq (h : s.AgreesBelow n t) (i : Instr) : reportedCode t i = reportedCode s i :=
  h.congr (f := fun u => reportedCode u i) fun _ _ => by cases i <;> rfl

/-! ### The CBC controller -/

/-- A turn that stores the same bytes, and sets CHAIN and the hidden state alike. -/
theorem storeTurn (h : s.AgreesBelow n t) (a : Nat) (bs : List Byte) (c : Block) (e : Engine) :
    State.AgreesBelow n { s with chain := c, mbuf := Memory.writeBytes s.mbuf a bs, engine := e }
      { t with chain := c, mbuf := Memory.writeBytes t.mbuf a bs, engine := e } :=
  (h.memWrite fun _ => .inl).map (f := fun u => { u with chain := c, engine := e }) fun _ _ => rfl

/-- A turn of CBCENC reads its block below `n` and stores the same block in the two states. -/
theorem encTurn {w : List Word} {nr : Nat} (hi : 16 * s.engine.blockIdx + 16 ≤ n) (h : s.AgreesBelow n t) :
    (cbcEncBlock w nr s).AgreesBelow n (cbcEncBlock w nr t) := by
  rw [cbcEncBlock_eq, cbcEncBlock_eq, h.congr (f := State.engine) fun _ _ => rfl,
    h.congr (f := State.chain) fun _ _ => rfl, h.messageBlock_eq hi]
  exact h.storeTurn ..

/-- A turn of CBCDEC reads its block below `n` and stores the same block in the two states. -/
theorem decTurn {w : List Word} {nr : Nat} (hi : 16 * s.engine.blockIdx + 16 ≤ n) (h : s.AgreesBelow n t) :
    (cbcDecBlock w nr s).AgreesBelow n (cbcDecBlock w nr t) := by
  rw [cbcDecBlock_eq, cbcDecBlock_eq, h.congr (f := State.engine) fun _ _ => rfl,
    h.congr (f := State.chain) fun _ _ => rfl, h.messageBlock_eq hi]
  exact h.storeTurn ..

/-- A block loop whose turns keep the relation, over blocks that lie below `n`. -/
theorem loop {turn : State → State}
    (hturn : ∀ u v, 16 * u.engine.blockIdx + 16 ≤ n → u.AgreesBelow n v → (turn u).AgreesBelow n (turn v))
    (hidx : ∀ k, (blockLoop turn k s).engine.blockIdx = k) {k : Nat} (hk : 16 * k ≤ n) (h : s.AgreesBelow n t) :
    (blockLoop turn k s).AgreesBelow n (blockLoop turn k t) := by
  induction k with
  | zero => exact h
  | succ k ih => exact hturn _ _ (by rw [hidx]; omega) (ih (by omega))

/-- The run of a CBC command over its message keeps the relation when its turns do. -/
theorem cbcRun {ks : KeySize} {k : Nat} {turn : State → State}
    (hturn : ∀ u v, 16 * u.engine.blockIdx + 16 ≤ s.mlen.toNat → u.AgreesBelow s.mlen.toNat v →
      (turn u).AgreesBelow s.mlen.toNat (turn v)) (w : List Word)
    (hidx : ∀ j, (blockLoop turn j (s.cbcStart ks w)).engine.blockIdx = j)
    (ho : s.cbcOperands = .ok (ks, k)) (h : s.AgreesBelow s.mlen.toNat t) :
    (blockLoop turn k (s.cbcStart ks w)).complete.AgreesBelow s.mlen.toNat
      (blockLoop turn k (t.cbcStart ks w)).complete :=
  have hstart := h.map (f := fun u => u.cbcStart ks w) fun _ _ => rfl
  (hstart.loop hturn hidx (cbcOperands_blocks_eq ho).le).map (f := State.complete) fun _ _ => rfl

end State.AgreesBelow

/-! ### The commands -/

/-- No operand decode of a CBC command stops with the code OK. -/
theorem cbcOperands_ne_error_ok (s : State) : s.cbcOperands ≠ .error .ok := by
  unfold State.cbcOperands
  split
  · nofun
  · split
    · nofun
    · split_ifs <;> nofun

/-- CBCENC and CBCDEC on two states with the same message: the operands are the same, and each turn keeps the
relation. -/
theorem execCbc_agrees {i : Instr} {s t s' t' : State} (hi : i = .cbcenc ∨ i = .cbcdec)
    (h : s.AgreesBelow s.mlen.toNat t) (hs : exec i s = .next s') (ht : exec i t = .next t') (hok : s'.err = .ok) :
    s'.AgreesBelow s.mlen.toNat t' := by
  have hkey : ∀ ks, t.keyOperand ks = s.keyOperand ks := fun ks => h.congr (f := (·.keyOperand ks)) fun _ _ => rfl
  rcases hi with rfl | rfl
  · obtain ⟨c, ho, rfl⟩ | ⟨ks, n, ho, rfl⟩ := execCbcenc_cases hs
    · exact absurd (hok ▸ ho) (cbcOperands_ne_error_ok s)
    · obtain rfl := Host.Outcome.next.inj ((execCbcenc_of_operands (h.cbcOperands_eq.trans ho)).symm.trans ht)
      rw [hkey]
      exact h.cbcRun (fun _ _ => .encTurn) _ (fun k => (cbcEncLoop_spec _ _ rfl k).1) ho
  · obtain ⟨c, ho, rfl⟩ | ⟨ks, n, ho, rfl⟩ := execCbcdec_cases hs
    · exact absurd (hok ▸ ho) (cbcOperands_ne_error_ok s)
    · obtain rfl := Host.Outcome.next.inj ((execCbcdec_of_operands (h.cbcOperands_eq.trans ho)).symm.trans ht)
      rw [hkey]
      exact h.cbcRun (fun _ _ => .decTurn) _ (fun k => (cbcDecLoop_spec _ _ rfl k).1) ho

/-- A command other than PAD that ends with OK, on two states with the same message. -/
theorem exec_agrees_of_ne_pad {i : Instr} {s t s' t' : State} (hi : i ≠ .pad) (h : s.AgreesBelow s.mlen.toNat t)
    (hs : exec i s = .next s') (ht : exec i t = .next t') (hok : s'.err = .ok) (hok' : t'.err = .ok) :
    s'.AgreesBelow s.mlen.toNat t' := by
  have hmlen : t.mlen = s.mlen := h.congr (f := State.mlen) fun _ _ => rfl
  cases i with
  | keyexp =>
    obtain ⟨-, rfl⟩ | ⟨ks, hk, rfl⟩ := execKeyexp_cases hs
    · cases hok
    · have hkeylen : t.keylen = s.keylen := h.congr (f := State.keylen) fun _ _ => rfl
      obtain rfl := execKeyexp_stores (hkeylen.trans (keySizeOf_eq_some.1 hk)) ht
      exact h.map (f := fun u => (u.loadSchedule ks (expand (u.keyOperand ks))).complete) fun _ _ => rfl
  | encblk =>
    obtain ⟨-, rfl⟩ | ⟨-, rfl⟩ := execEncblk_cases hs
    · cases hok
    · obtain ⟨-, rfl⟩ | ⟨-, rfl⟩ := execEncblk_cases ht
      · cases hok'
      · exact h.map (f := fun u => { u.runCipher u.blk u.storedSchedule (infoNr u.schedInfo) with
          blk := cipher u.blk u.storedSchedule (infoNr u.schedInfo) }.complete) fun _ _ => rfl
  | decblk =>
    obtain ⟨-, rfl⟩ | ⟨-, rfl⟩ := execDecblk_cases hs
    · cases hok
    · obtain ⟨-, rfl⟩ | ⟨-, rfl⟩ := execDecblk_cases ht
      · cases hok'
      · exact h.map (f := fun u => { u.runInvCipher u.blk u.storedSchedule (infoNr u.schedInfo) with
          blk := invCipher u.blk u.storedSchedule (infoNr u.schedInfo) }.complete) fun _ _ => rfl
  | cbcenc => exact execCbc_agrees (.inl rfl) h hs ht hok
  | cbcdec => exact execCbc_agrees (.inr rfl) h hs ht hok
  | pad => exact absurd rfl hi
  | padlen =>
    obtain ⟨-, rfl⟩ | ⟨-, rfl⟩ := execPadlen_cases hs
    · cases hok
    · obtain ⟨-, rfl⟩ | ⟨-, rfl⟩ := execPadlen_cases ht
      · cases hok'
      · rw [hmlen, h.padLength_eq]
        exact h.map (f := fun u => (u.setResult _).complete) fun _ _ => rfl
  | unpad =>
    obtain ⟨-, rfl⟩ | ⟨-, rfl⟩ := execUnpad_cases hs
    · cases hok
    · obtain ⟨-, rfl⟩ | ⟨-, rfl⟩ := execUnpad_cases ht
      · cases hok'
      · rw [hmlen, h.padLength_eq]
        exact h.map (f := fun u => ((u.setMlen _).setResult _).complete) fun _ _ => rfl

/-- PAD on two states with the same message: what it stores runs from the end of the message to the end of the padded
message, so the states agree on that too. -/
theorem execPad_agrees {s t s' t' : State} (h : s.AgreesBelow s.mlen.toNat t) (hs : exec .pad s = .next s')
    (ht : exec .pad t = .next t') (hok : s'.err = .ok) (hok' : t'.err = .ok) : s'.AgreesBelow s'.mlen.toNat t' := by
  obtain ⟨-, rfl⟩ | ⟨-, -, rfl⟩ | ⟨hfit, rfl⟩ := execPad_cases hs
  · cases hok
  · cases hok
  · obtain ⟨-, rfl⟩ | ⟨-, -, rfl⟩ | ⟨-, rfl⟩ := execPad_cases ht
    · cases hok'
    · cases hok'
    · obtain ⟨-, -, hsize⟩ := mbufSize_bounds s.params
      rw [h.congr (f := State.mlen) fun _ _ => rfl, State.complete_mlen, State.setResult_mlen,
        setMlen_mlen_toNat _ (by omega)]
      have hstore := h.memWrite (m := s.mlen.toNat + padCount s.mlen.toNat) (a := s.mlen.toNat)
        (bs := List.replicate (padCount s.mlen.toNat) (BitVec.ofNat 8 (padCount s.mlen.toNat)))
        (by simp only [List.length_replicate]; omega)
      exact hstore.map (f := fun u => ((u.setMlen _).setResult _).complete) fun _ _ => rfl

/-- No command but PAD makes the message longer (R22). -/
theorem exec_mlen_le {i : Instr} {s t : State} (hi : i ≠ .pad) (h : exec i s = .next t) :
    t.mlen.toNat ≤ s.mlen.toNat := by
  by_cases hu : i = .unpad
  · subst hu
    obtain ⟨-, rfl⟩ | ⟨-, rfl⟩ := execUnpad_cases h
    · exact le_rfl
    · rw [State.complete_mlen, State.setResult_mlen, setMlen_mlen_toNat _ (by omega)]
      exact Nat.sub_le ..
  · obtain ⟨-, -, -, hmlen, -⟩ := resultsWrittenOnlyByTheirCommands i s t h
    by_contra hlt
    exact (hmlen fun he => hlt (he ▸ le_rfl)).elim hi hu

/-- Settles O56: the two runs report the same code; an error changes ERR and BUSY alone, and a run that ends with OK
keeps the relation. -/
theorem bytesBeyondMessageIgnored : Obligations.BytesBeyondMessageIgnored := by
  unfold Obligations.BytesBeyondMessageIgnored
  intro i s t s' t' heq hbyte hs ht
  have h : s.AgreesBelow s.mlen.toNat t := ⟨heq, hbyte⟩
  have herr : t'.err = s'.err := by rw [exec_err ht, exec_err hs, h.reportedCode_eq]
  have h' : s'.AgreesBelow s'.mlen.toNat t' := by
    by_cases hok : s'.err = .ok
    · by_cases hi : i = .pad
      · subst hi
        exact execPad_agrees h hs ht hok (herr.trans hok)
      · exact (exec_agrees_of_ne_pad hi h hs ht hok (herr.trans hok)).mono (exec_mlen_le hi hs)
    · rw [errorsArePrecise i s s' hs hok, errorsArePrecise i t t' ht (herr ▸ hok), herr]
      exact h.map (f := fun u => { u with pending := none, err := s'.err }) fun _ _ => rfl
  exact ⟨h'.eq, h'.byte⟩

end Sys2Proof.Machine
end
